-- ==== Sys2Proof/Word.lean ====
section
/-! DEFINITION. The one word type of the block: a byte. Every data value the block handles is an
8-bit unsigned byte (00_scope.md R7); bit 0 is its least significant bit (R8). -/

namespace Sys2Proof

/-- A byte, wire or logical (R7). -/
abbrev Byte := BitVec 8

/-- `xorfold(seed, [b0, ..., bn-1])` of R9: the seed XORed with every listed byte, left to right. -/
def xorFold (seed : Byte) (bs : List Byte) : Byte := bs.foldl (fun x b => x ^^^ b) seed

end Sys2Proof
end

