-- ==== Sys2Proof/Config.lean ====
section
/-! DEFINITION. What is fixed for the block: the constants of 00_scope.md R6, the OPEN size parameters of
92_eei_decisions.md D10, and the free values that stand for what 93_implementation_defined.md calls
unspecified. An opaque constant has no body here: no proof can learn what it is. -/

namespace Sys2Proof.Config

/-- DELIMITER, the reserved start-of-frame byte (R70). -/
def delimiter : Byte := 0xC0#8
/-- ESCAPE, the escape introducer (R70). -/
def escape : Byte := 0xDB#8
/-- ESCAPE_DELIM, the second byte of an escaped DELIMITER (R70). -/
def escapeDelim : Byte := 0xDC#8
/-- ESCAPE_ESCAPE, the second byte of an escaped ESCAPE (R70). -/
def escapeEscape : Byte := 0xDD#8
/-- CHK_SEED, the seed of the checksum (R6, R121). -/
def chkSeed : Byte := 0xFF#8
/-- MAX_LEN: the largest payload length and the size of the payload buffer (R6, R50). -/
def maxLen : Nat := 254
/-- N_CMD: how many command codes are known (R6, R78). -/
def nCmd : Nat := 5

/-- A value of `EXP_LEN(c)`: a length 0..254, or `ANY` for no size check (R6). -/
inductive ExpLen where
  | any
  | exactly (n : Fin 255)
  deriving DecidableEq, Repr, Inhabited

/-- `EXP_LEN_SPEEDREQ`, OPEN (R126, 90_conflicts.md C3, log entry 4). -/
opaque expLenSpeedRequest : ExpLen
/-- `EXP_LEN_SPEEDIND`, OPEN (R127, log entry 4). -/
opaque expLenSpeedIndication : ExpLen
/-- `EXP_LEN_OVERFLOW`, OPEN (R128, log entry 4). -/
opaque expLenCurrentOverflow : ExpLen
/-- `EXP_LEN` of a code that is no command. The spec states none, and by R30 no reachable state asks for it:
a free value (log entry 5). -/
opaque expLenUnknown : Byte → ExpLen

/-- The five command kinds, in the order the source lists them (R79). -/
inductive CommandName where
  | speedRequest
  | speedIndication
  | currentOverflowIndication
  | currentIndication
  | rangeIndication
  deriving DecidableEq, Repr

/-- A value of the parameter `CMD_CODE` (R6, R79): the code of each command kind. Five different codes 0..4, so a bijection, as
92_eei_decisions.md's open parameters ask. -/
structure CmdCode where
  speedRequest : Fin 5
  speedIndication : Fin 5
  currentOverflowIndication : Fin 5
  currentIndication : Fin 5
  rangeIndication : Fin 5
  distinct : [speedRequest, speedIndication, currentOverflowIndication, currentIndication, rangeIndication].Nodup
  deriving DecidableEq, Repr

/-- The default of `CMD_CODE`: the listed order (R6, R79, D5). -/
def CmdCode.listed : CmdCode :=
  { speedRequest := 0, speedIndication := 1, currentOverflowIndication := 2, currentIndication := 3,
    rangeIndication := 4, distinct := by decide }

/-- The places where the spec leaves a byte unspecified and the block goes on. -/
inductive FreeSite where
  /-- `rx_cmd` after RESET (R23, R230). -/
  | rxCmd
  /-- `rx_len` after RESET (R24, R230). -/
  | rxLen
  /-- `rx_cur` after RESET (R25, R230). -/
  | rxCur
  /-- `msg_cmd` while `msg_valid` = 0 (R38). -/
  | msgCmd
  /-- `msg_len` while `msg_valid` = 0 (R38). -/
  | msgLen
  /-- `ev_code` while `ev_valid` = 0 (R39, 93_implementation_defined.md §1). -/
  | evCode
  /-- `ev_info` while `ev_valid` = 0 (R39, R200). -/
  | evInfo
  /-- `wire_byte` while `wire_valid` = 0 (R40). -/
  | wireByte
  /-- `msg_rd_data` for read address `a`, outside a delivered message (R53). -/
  | msgRdData (a : Byte)
  deriving DecidableEq, Repr

/-- The free draw at a site, at a transition number (log entry 2). -/
opaque freeByte : FreeSite → Nat → Byte

end Sys2Proof.Config
end

