-- ==== Sys2Proof/Syntax.lean ====
section
/-! DEFINITION. The rows of spec/opcode_table.json as one inductive type, and the two forms in which the block meets them:
levels at its ports for the four operations (R87), numeric keys for the byte classes and command codes
(INDEX.md, "Reading opcode_table.json"). -/

namespace Sys2Proof

/-- One constructor per row of spec/opcode_table.json. -/
inductive Instr where
  /-- RX_BYTE: one wire byte is taken (R140). -/
  | rxByte (w : Byte)
  /-- TX_FRAME: a frame is requested (R170); `payload` is `tx_payload[0 .. tx_len-1]`. -/
  | txFrame (cmd len : Byte) (payload : List Byte)
  /-- TX_POP: the wire takes the head of `tx_out` (R172). -/
  | txPop
  /-- RESET (R230). -/
  | reset
  /-- DEC_DELIM: wire byte 0xC0 (R105); `esc` is bit 8 of the key, which the row leaves open. -/
  | decDelim (esc : Bool)
  /-- DEC_ESC: wire byte 0xDB with no escape pending (R106). -/
  | decEsc
  /-- DEC_ESC_DELIM: wire byte 0xDC with an escape pending (R108). -/
  | decEscDelim
  /-- DEC_ESC_ESC: wire byte 0xDD with an escape pending (R109). -/
  | decEscEsc
  /-- DEC_LIT: any other wire byte with no escape pending (R107). -/
  | decLit (w : Byte)
  /-- DEC_ESC_BAD: any other wire byte with an escape pending (R110). -/
  | decEscBad (w : Byte)
  /-- ENC_DELIM: logical byte 0xC0 at the encoder (R101). -/
  | encDelim
  /-- ENC_ESC: logical byte 0xDB at the encoder (R102). -/
  | encEsc
  /-- ENC_LIT: any other logical byte at the encoder (R103). -/
  | encLit (b : Byte)
  /-- SpeedRequest as the COMMAND byte (R126). -/
  | speedRequest
  /-- SpeedIndication as the COMMAND byte (R127). -/
  | speedIndication
  /-- CurrentOverflowIndication as the COMMAND byte (R128). -/
  | currentOverflowIndication
  /-- CurrentIndication as the COMMAND byte (R129). -/
  | currentIndication
  /-- RangeIndication as the COMMAND byte (R130). -/
  | rangeIndication
  /-- CMD_RESERVED: a code 5..255 as the COMMAND byte (R131). -/
  | cmdReserved (c : Byte)
  deriving DecidableEq, Repr

/-- The key formats of the table (INDEX.md). -/
inductive KeyFormat where
  /-- `esc_pending << 8 | wire_byte`. -/
  | dec9
  /-- The logical byte at the encoder. -/
  | enc8
  /-- The logical COMMAND byte. -/
  | cmd8
  deriving DecidableEq, Repr

/-- The port levels of one step that the conditions of R87 read: the inputs the host drives, and the block's
own `tx_ready` and `wire_valid`. -/
structure PortLevels where
  rst : Bool
  rxValid : Bool
  rxByte : Byte
  txValid : Bool
  txReady : Bool
  txCmd : Byte
  txLen : Byte
  txPayload : List Byte
  wireValid : Bool
  wireReady : Bool
  deriving DecidableEq, Repr

/-- What stands for an instruction word: port levels for an operation, a key for a class or a command. -/
inductive Encoded where
  | ports (l : PortLevels)
  | key (f : KeyFormat) (k : Nat)
  deriving DecidableEq, Repr

end Sys2Proof
end

