-- ==== Sys2Proof/WellFormed.lean ====
section
/-! DEFINITION. Which terms of `Instr` are rows of the table with operands the row admits. -/

namespace Sys2Proof

/-- A row's operands are in its range: the `exclude` and `match_range` entries of the table (R74, R75, R78), and for TX_FRAME as
many payload bytes as `tx_len` says, of which the port carries at most 254 (R35, R37). -/
def Instr.wellFormed : Instr → Bool
  | .rxByte _ => true
  | .txFrame _ len payload => payload.length == min len.toNat Config.maxLen
  | .txPop => true
  | .reset => true
  | .decDelim _ => true
  | .decEsc => true
  | .decEscDelim => true
  | .decEscEsc => true
  | .decLit w => w != Config.delimiter && w != Config.escape
  | .decEscBad w => w != Config.delimiter && w != Config.escapeDelim && w != Config.escapeEscape
  | .encDelim => true
  | .encEsc => true
  | .encLit b => b != Config.delimiter && b != Config.escape
  | .speedRequest => true
  | .speedIndication => true
  | .currentOverflowIndication => true
  | .currentIndication => true
  | .rangeIndication => true
  | .cmdReserved c => decide (Config.nCmd ≤ c.toNat)

end Sys2Proof
end

