-- ==== Sys2Proof/Decode.lean ====
section
/-! DEFINITION. The opcode table as data, the decoder that reads it, and after it the encoder (R74, R75, R78, R79, R87, and
INDEX.md's rule for a key: `(k & mask) == match`, not excluded, in the range, rows tried in `decode_order`). -/

namespace Sys2Proof

/-- Why a key is rejected. -/
inductive DecodeError where
  /-- The key has more bits than its format. -/
  | keyTooWide
  /-- No row of the format matches the key (no key of the format's width is rejected so). -/
  | noRow
  deriving DecidableEq, Repr

/-- A row's pattern as the table writes it. -/
structure RowPattern where
  mask : Nat
  pat : Nat
  exclude : List Nat
  range : Option (Nat × Nat)
  deriving DecidableEq, Repr

/-- The table's rule for a key and a row. -/
def RowPattern.hits (p : RowPattern) (k : Nat) : Bool :=
  (k &&& p.mask) == p.pat && !p.exclude.contains k &&
    (match p.range with
     | none => true
     | some (lo, hi) => decide (lo ≤ k) && decide (k ≤ hi))

/-- The code of a command kind under a pairing (R79). -/
def commandCode (c : Config.CmdCode) : Config.CommandName → Byte
  | .speedRequest => BitVec.ofNat 8 c.speedRequest.val
  | .speedIndication => BitVec.ofNat 8 c.speedIndication.val
  | .currentOverflowIndication => BitVec.ofNat 8 c.currentOverflowIndication.val
  | .currentIndication => BitVec.ofNat 8 c.currentIndication.val
  | .rangeIndication => BitVec.ofNat 8 c.rangeIndication.val

/-- The rows of the table that have a key. -/
inductive KeyRow where
  | decDelim | decEsc | decEscDelim | decEscEsc | decLit | decEscBad
  | encDelim | encEsc | encLit
  | speedRequest | speedIndication | currentOverflowIndication | currentIndication | rangeIndication | cmdReserved
  deriving DecidableEq, Repr

/-- Each row's `match`, `mask`, `exclude` and `match_range`. A command row's `match` is its code by `CMD_CODE`, as the table's note on it says. -/
def KeyRow.pattern (c : Config.CmdCode) : KeyRow → RowPattern
  | .decDelim => ⟨0x0FF, 0x0C0, [], none⟩
  | .decEsc => ⟨0x1FF, 0x0DB, [], none⟩
  | .decEscDelim => ⟨0x1FF, 0x1DC, [], none⟩
  | .decEscEsc => ⟨0x1FF, 0x1DD, [], none⟩
  | .decLit => ⟨0x100, 0x000, [0x0C0, 0x0DB], none⟩
  | .decEscBad => ⟨0x100, 0x100, [0x1C0, 0x1DC, 0x1DD], none⟩
  | .encDelim => ⟨0xFF, 0xC0, [], none⟩
  | .encEsc => ⟨0xFF, 0xDB, [], none⟩
  | .encLit => ⟨0x00, 0x00, [0xC0, 0xDB], none⟩
  | .speedRequest => ⟨0xFF, (commandCode c .speedRequest).toNat, [], none⟩
  | .speedIndication => ⟨0xFF, (commandCode c .speedIndication).toNat, [], none⟩
  | .currentOverflowIndication => ⟨0xFF, (commandCode c .currentOverflowIndication).toNat, [], none⟩
  | .currentIndication => ⟨0xFF, (commandCode c .currentIndication).toNat, [], none⟩
  | .rangeIndication => ⟨0xFF, (commandCode c .rangeIndication).toNat, [], none⟩
  | .cmdReserved => ⟨0x00, 0x00, [], some (0x05, 0xFF)⟩

/-- The instruction a row makes of a key that hits it: the operand is the key's low byte, for DEC_DELIM its bit 8. -/
def KeyRow.instr (r : KeyRow) (k : Nat) : Instr :=
  match r with
  | .decDelim => .decDelim (k.testBit 8)
  | .decEsc => .decEsc
  | .decEscDelim => .decEscDelim
  | .decEscEsc => .decEscEsc
  | .decLit => .decLit (BitVec.ofNat 8 k)
  | .decEscBad => .decEscBad (BitVec.ofNat 8 k)
  | .encDelim => .encDelim
  | .encEsc => .encEsc
  | .encLit => .encLit (BitVec.ofNat 8 k)
  | .speedRequest => .speedRequest
  | .speedIndication => .speedIndication
  | .currentOverflowIndication => .currentOverflowIndication
  | .currentIndication => .currentIndication
  | .rangeIndication => .rangeIndication
  | .cmdReserved => .cmdReserved (BitVec.ofNat 8 k)

/-- The bits of a key of a format. -/
def KeyFormat.width : KeyFormat → Nat
  | .dec9 => 9
  | .enc8 => 8
  | .cmd8 => 8

/-- A format's rows in `decode_order`. -/
def KeyFormat.rows : KeyFormat → List KeyRow
  | .dec9 => [.decDelim, .decEsc, .decEscDelim, .decEscEsc, .decLit, .decEscBad]
  | .enc8 => [.encDelim, .encEsc, .encLit]
  | .cmd8 => [.speedRequest, .speedIndication, .currentOverflowIndication, .currentIndication,
      .rangeIndication, .cmdReserved]

/-- Decode one key of a format under a pairing of names and codes. -/
def decodeKey (c : Config.CmdCode) (f : KeyFormat) (k : Nat) : Except DecodeError Instr :=
  if 2 ^ f.width ≤ k then .error .keyTooWide
  else match f.rows.find? (fun r => (r.pattern c).hits k) with
    | some r => .ok (r.instr k)
    | none => .error .noRow

/-- The key the decoder forms from `esc_pending` and a wire byte (INDEX.md: `esc_pending << 8 | wire_byte`). -/
def decKey (esc : Bool) (w : Byte) : Nat := (if esc then 256 else 0) + w.toNat

/-- The operations the port levels of one step select (R87): RESET excludes the others (R232); else RX_BYTE, and beside it the
transmit side's TX_FRAME or TX_POP (R63). The receive side stands first. -/
def decodePorts (l : PortLevels) : List Instr :=
  if l.rst then [.reset]
  else
    (if l.rxValid then [.rxByte l.rxByte] else []) ++
    (if l.txValid && l.txReady then [.txFrame l.txCmd l.txLen (l.txPayload.take l.txLen.toNat)]
     else if l.wireValid && l.wireReady then [.txPop]
     else [])

/-- The decoder: what the levels or the key select, in the order in which a step performs them. -/
def decode (c : Config.CmdCode) : Encoded → Except DecodeError (List Instr)
  | .ports l => .ok (decodePorts l)
  | .key f k => (decodeKey c f k).map (fun i => [i])

/-- Every port level low. -/
def PortLevels.quiet : PortLevels :=
  { rst := false, rxValid := false, rxByte := 0, txValid := false, txReady := false, txCmd := 0, txLen := 0,
    txPayload := [], wireValid := false, wireReady := false }

/-- The encoder, from the tables of R74, R75, R79 and R87. -/
def encode (pairing : Config.CmdCode) : Instr → Encoded
  | .rxByte w => .ports { PortLevels.quiet with rxValid := true, rxByte := w }
  | .txFrame c n p =>
    .ports { PortLevels.quiet with txValid := true, txReady := true, txCmd := c, txLen := n, txPayload := p }
  | .txPop => .ports { PortLevels.quiet with wireValid := true, wireReady := true }
  | .reset => .ports { PortLevels.quiet with rst := true }
  | .decDelim esc => .key .dec9 (decKey esc Config.delimiter)
  | .decEsc => .key .dec9 (decKey false Config.escape)
  | .decEscDelim => .key .dec9 (decKey true Config.escapeDelim)
  | .decEscEsc => .key .dec9 (decKey true Config.escapeEscape)
  | .decLit w => .key .dec9 (decKey false w)
  | .decEscBad w => .key .dec9 (decKey true w)
  | .encDelim => .key .enc8 Config.delimiter.toNat
  | .encEsc => .key .enc8 Config.escape.toNat
  | .encLit b => .key .enc8 b.toNat
  | .speedRequest => .key .cmd8 (commandCode pairing .speedRequest).toNat
  | .speedIndication => .key .cmd8 (commandCode pairing .speedIndication).toNat
  | .currentOverflowIndication => .key .cmd8 (commandCode pairing .currentOverflowIndication).toNat
  | .currentIndication => .key .cmd8 (commandCode pairing .currentIndication).toNat
  | .rangeIndication => .key .cmd8 (commandCode pairing .rangeIndication).toNat
  | .cmdReserved c => .key .cmd8 c.toNat

/-- Which format a table word of `nbits` bits is read in. Nine bits, two bytes in whole bytes, are a DEC9 key. Eight bits are an
ENC8 key for 0xC0 and 0xDB and a CMD8 key for the rest: the table's two 8-bit formats share their words (log entry 8). -/
def tableKey (nbits w : Nat) : Option (KeyFormat × Nat) :=
  if 8 < nbits && nbits ≤ 16 then
    if w < 512 then some (.dec9, w) else none
  else if nbits == 8 then
    if w < 256 then
      if w == 0xC0 || w == 0xDB then some (.enc8, w) else some (.cmd8, w)
    else none
  else none

/-- The instruction the decoder reads from a word of the opcode table, which is printed for the default `CMD_CODE`. -/
def decodeTableWord (nbits w : Nat) : Option Instr :=
  match tableKey nbits w with
  | none => none
  | some (f, k) =>
    match decodeKey .listed f k with
    | .ok i => some i
    | .error _ => none

end Sys2Proof
end

