-- ==== Sys2Proof/Machine/State.lean ====
section
/-! DEFINITION. The state of the block (10_state.md), as plain data; why it stops; and its state after reset. -/

namespace Sys2Proof.Machine

/-- `rx_phase` (R21): the logical byte the reassembler expects next. -/
inductive Phase where
  | idle
  | command
  | len
  | data
  | checksum
  deriving DecidableEq, Repr

/-- The error events of R200 (`ev_code` 1 to 5). -/
inductive EventCode where
  | badEscape
  | unknownCmd
  | badLen
  | badChecksum
  | sizeMismatch
  deriving DecidableEq, Repr

/-- One error event: its code and info byte (R39). -/
structure Event where
  code : EventCode
  info : Byte
  deriving DecidableEq, Repr

/-- One delivered message: `emit_msg(cmd, len, payload)` (R9, R38). -/
structure Message where
  cmd : Byte
  len : Byte
  payload : List Byte
  deriving DecidableEq, Repr

/-- What the last transition put out. Every field is a one-transition strobe (R38, R39, R213): the next transition, an idle step
too, clears it. -/
structure Outputs where
  /-- The message delivered, if `msg_valid` was 1 (R38). -/
  msg : Option Message
  /-- The event raised, if `ev_valid` was 1 (R39). -/
  ev : Option Event
  /-- The byte a TX_POP handed to the wire (R172). -/
  wire : Option Byte
  /-- The wire bytes the escape encoder answered when an ENC row was presented to it (R100, log entry 7). -/
  enc : Option (List Byte)
  deriving DecidableEq, Repr

/-- No output. -/
def Outputs.none : Outputs := { msg := .none, ev := .none, wire := .none, enc := .none }

/-- What the host drives on the input ports in one step (R35). `txPayload` lists the payload bytes it drives. -/
structure PortInputs where
  rst : Bool
  rxValid : Bool
  rxByte : Byte
  txValid : Bool
  txCmd : Byte
  txLen : Byte
  txPayload : List Byte
  wireReady : Bool
  deriving DecidableEq, Repr

/-- One step's stimulus: port inputs, or one key of the opcode table presented to the unit that is keyed on it (log entry 7). -/
inductive Stimulus where
  | ports (p : PortInputs)
  | key (f : KeyFormat) (k : Nat)
  deriving DecidableEq, Repr

/-- The payload buffer `rx_buf` (R26, R50): the bytes that have a value, by index, indices strictly rising. An index that is not
listed holds an unspecified byte, which has no value (R26, R230, log entry 3). -/
abbrev Memory := List Host.Cell

/-- The block's state. -/
structure State where
  /-- `esc_pending` (R20). -/
  escPending : Bool
  /-- `rx_phase` (R21). -/
  rxPhase : Phase
  /-- `rx_cmd` (R23). -/
  rxCmd : Byte
  /-- `rx_len` (R24). -/
  rxLen : Byte
  /-- `rx_cur` (R25). -/
  rxCur : Byte
  /-- `rx_buf` (R26). -/
  rxBuf : Memory
  /-- `tx_out` (R27), oldest byte first. -/
  txOut : List Byte
  /-- The parameter `CMD_CODE` of the block (R6, R79): no transition writes it (log entry 13). -/
  cmdCode : Config.CmdCode
  /-- The outputs of the last transition (R38, R39, R40). -/
  out : Outputs
  /-- The MODEL'S own field: what the host presents in the coming steps, first step first (log entry 6). -/
  stimuli : List Stimulus
  /-- The MODEL'S own field: the number of the coming transition, at which free values are drawn (log entry 2). -/
  tick : Nat
  deriving DecidableEq, Repr

/-- Why the block's step has no next state although an operation was selected. By R30 no run from reset meets one. -/
inductive Fault where
  /-- Raised by an access to `rx_buf` at an index 254 or above, which does not exist (R50). Safe: only unreachable states do it. -/
  | bufferIndexOutOfRange
  /-- Raised by a read of a byte of `rx_buf` that holds an unspecified value (93_implementation_defined.md §1: `fault` on read).
  Safe: only unreachable states do it. -/
  | bufferByteUnspecified
  deriving DecidableEq, Repr

/-- Why the model gives no step. -/
inductive Refusal where
  /-- An arm of `exec` without a meaning. Safe. -/
  | notModelled (mnemonic : String)
  /-- TX_FRAME while `tx_out` is not empty: `tx_ready` = 0 and there is no such step (R171, 93 §4). Safe. -/
  | txBusy
  /-- TX_FRAME with `tx_cmd` ≥ 5 or `tx_len` > 254: refused at the port, "no step" (R171). Safe. -/
  | txBadRequest
  /-- TX_FRAME with a payload operand that is not `tx_len` bytes long: not a term of the table. Safe. -/
  | txPayloadLength
  /-- TX_POP while `tx_out` is empty: there is no TX_POP (R172). Safe. -/
  | noWireByte
  /-- A class or command row whose selecting condition does not hold in the state (R74, R75, R78): the block does not perform it
  there, another row is selected. Safe. -/
  | notSelected
  /-- A key stimulus that no row of the table matches. Safe. -/
  | undecodable
  deriving DecidableEq, Repr

/-- The state right after reset of a block with a given `CMD_CODE`: the values of R20, R21 and R27; for `rx_cmd`, `rx_len` and `rx_cur`, whose reset values R23 to R25
leave unspecified, zero (DESIGN CHOICE, unsafe, log entry 1); no byte of `rx_buf` has a value (R26). -/
def State.resetWith (c : Config.CmdCode) : State :=
  { escPending := false
    rxPhase := .idle
    rxCmd := 0
    rxLen := 0
    rxCur := 0
    rxBuf := []
    txOut := []
    cmdCode := c
    out := Outputs.none
    stimuli := []
    tick := 0 }

/-- The state right after reset of the block at the default of `CMD_CODE` (R6, log entry 13). -/
def State.reset : State := State.resetWith .listed

end Sys2Proof.Machine
end

