-- ==== Sys2Proof/Machine/Ops.lean ====
section
/-! DEFINITION. The named operations every meaning is built from: the payload buffer (20_memory.md), the start of a transition, the
reporting of an error event (60_exceptions.md R209), the delivery of a message (R38), the transmit queue (R9, R27). -/

namespace Sys2Proof.Machine

/-- The outcome of a transition of the block. -/
abbrev Result := Host.Outcome State Fault Refusal

/-! ## The payload buffer -/

/-- `MemRead(i, 1)`: the byte at an index, if it has a value (R9, R58). -/
def Memory.read : Memory → Nat → Option Byte
  | [], _ => none
  | (k, b) :: m, i => if k = i then some b else Memory.read m i

/-- `MemWrite(i, 1, v)` (R9, R58), keeping the indices strictly rising. -/
def Memory.write : Memory → Nat → Byte → Memory
  | [], i, v => [(i, v)]
  | (k, b) :: m, i, v =>
    if k < i then (k, b) :: Memory.write m i v
    else if k = i then (i, v) :: m
    else (i, v) :: (k, b) :: m

/-- The canonical form of the buffer: indices strictly rising from `lo` on, all below 254 (R50). -/
def Memory.wfFrom : Nat → Memory → Bool
  | _, [] => true
  | lo, (k, _) :: m => decide (lo ≤ k) && decide (k < Config.maxLen) && Memory.wfFrom (k + 1) m

/-- The buffer is in its canonical form. -/
def Memory.wf (m : Memory) : Bool := Memory.wfFrom 0 m

/-- Read one byte of the buffer as the block's rules do: an index outside 0..253 does not exist (R50), an unspecified byte has no
value (93_implementation_defined.md §1). -/
def bufRead (m : Memory) (i : Nat) : Except Fault Byte :=
  if Config.maxLen ≤ i then .error .bufferIndexOutOfRange
  else match m.read i with
    | some b => .ok b
    | none => .error .bufferByteUnspecified

/-- Read `n` bytes of the buffer from index `i` on, in order. -/
def bufReadFrom (m : Memory) : Nat → Nat → Except Fault (List Byte)
  | _, 0 => .ok []
  | i, n + 1 =>
    match bufRead m i with
    | .error e => .error e
    | .ok b =>
      match bufReadFrom m (i + 1) n with
      | .error e => .error e
      | .ok bs => .ok (b :: bs)

/-! ## Transitions -/

/-- The start of every transition and all of an idle step: the strobes of the last one fall (R38, R39, R213), and the transition is
numbered. No other state changes (R29). -/
def State.begin (s : State) : State := { s with out := Outputs.none, tick := s.tick + 1 }

/-- `raise <Event>(info)`: entry of an error (R209). The event is reported and the reassembler returns to IDLE; nothing is saved, and the
values of the discarded frame stay as they are. There is no return operation (R210). -/
def State.raise (s : State) (c : EventCode) (info : Byte) : State :=
  { s with rxPhase := .idle, out := { s.out with ev := some ⟨c, info⟩ } }

/-- `emit_msg(cmd, len, payload)` (R9, R38). -/
def State.emitMsg (s : State) (cmd len : Byte) (payload : List Byte) : State :=
  { s with out := { s.out with msg := some ⟨cmd, len, payload⟩ } }

/-- `push_wire(xs)` (R9). -/
def State.pushWire (s : State) (xs : List Byte) : State := { s with txOut := s.txOut ++ xs }

/-- Outputs of two operations of one step, seen together (R63). -/
def Outputs.merge (a b : Outputs) : Outputs :=
  { msg := a.msg.or b.msg, ev := a.ev.or b.ev, wire := a.wire.or b.wire, enc := a.enc.or b.enc }

end Sys2Proof.Machine
end

