-- ==== Sys2Proof/Machine/Operands.lean ====
section
/-! DEFINITION. The forms of the block's operands: wire bytes and logical bytes (40_frame_codec.md), the escape encoder, and the
logical and wire frame (30_encoding.md §2). -/

namespace Sys2Proof.Machine

/-- A decoder result (R104). -/
inductive DecResult where
  /-- `SOF`: frame start. -/
  | sof
  /-- `NONE`: no logical byte. -/
  | none
  /-- `BYTE(v)`: the logical byte `v`. -/
  | byte (v : Byte)
  /-- `BADESC(w)`: a protocol violation by the wire byte `w`. -/
  | badEsc (w : Byte)
  deriving DecidableEq, Repr

/-- `decode_byte(esc, w)` (R104): the new `esc_pending` and the decoder result. -/
def decodeByte (esc : Bool) (w : Byte) : Bool × DecResult :=
  if w = Config.delimiter then (false, .sof)
  else if esc = false then
    if w = Config.escape then (true, .none) else (false, .byte w)
  else if w = Config.escapeDelim then (false, .byte Config.delimiter)
  else if w = Config.escapeEscape then (false, .byte Config.escape)
  else (false, .badEsc w)

/-- The decoder over a run of wire bytes: the escape state after it and the results in order (R61, R111). -/
def decodeBytes : Bool → List Byte → Bool × List DecResult
  | esc, [] => (esc, [])
  | esc, w :: ws =>
    let (esc', r) := decodeByte esc w
    let (esc'', rs) := decodeBytes esc' ws
    (esc'', r :: rs)

/-- A logical byte the encoder must escape (R75). -/
def mustEscape (b : Byte) : Bool := b == Config.delimiter || b == Config.escape

/-- `encode_byte(b)` (R100). -/
def encodeByte (b : Byte) : List Byte :=
  if b = Config.delimiter then [Config.escape, Config.escapeDelim]
  else if b = Config.escape then [Config.escape, Config.escapeEscape]
  else [b]

/-- The escaped form of a run of logical bytes (R72). -/
def encodeBytes (bs : List Byte) : List Byte := bs.flatMap encodeByte

end Sys2Proof.Machine
end

