-- ==== Sys2Proof/Machine/Codec.lean ====
section
/-! DEFINITION. The three encoder classes (R101 to R103). The encoder reads and writes no state of the block (R100); its answer is the
model's output `enc` of that transition (log entry 7). -/

namespace Sys2Proof.Machine

/-- The encoder answers a byte sequence. -/
def encoderAnswers (ws : List Byte) (s : State) : State :=
  { s.begin with out := { Outputs.none with enc := some ws } }

/-- ENC_DELIM (R101). -/
def execEncDelim (s : State) : Result := .next (encoderAnswers [Config.escape, Config.escapeDelim] s)

/-- ENC_ESC (R102). -/
def execEncEsc (s : State) : Result := .next (encoderAnswers [Config.escape, Config.escapeEscape] s)

/-- ENC_LIT (R103); 0xC0 and 0xDB are not in the class (R75). -/
def execEncLit (b : Byte) (s : State) : Result :=
  if mustEscape b then .refused .notSelected else .next (encoderAnswers [b] s)

end Sys2Proof.Machine
end

