-- ==== Sys2Proof/Machine/Flags.lean ====
section
/-! DEFINITION. The block has no condition codes (R34); what it computes and tests is here: the checksum (R120), the command check
(R123), the length-range check (R146), the size check (R124), and the numeric codes of phases and events. -/

namespace Sys2Proof.Machine

/-- `checksum(cmd, len, payload)` (R120). -/
def checksum (cmd len : Byte) (payload : List Byte) : Byte := xorFold Config.chkSeed (cmd :: len :: payload)

/-- The logical frame `[COMMAND][LENGTH][PAYLOAD][CHECKSUM]` (R71). -/
def logicalFrame (cmd len : Byte) (payload : List Byte) : List Byte :=
  [cmd, len] ++ payload ++ [checksum cmd len payload]

/-- The wire frame: DELIMITER, then every logical byte in its escaped form (R72, R73). -/
def wireFrame (cmd len : Byte) (payload : List Byte) : List Byte :=
  Config.delimiter :: encodeBytes (logicalFrame cmd len payload)

/-- The command check: `v < N_CMD` (R123). -/
def isKnownCommand (v : Byte) : Bool := decide (v.toNat < Config.nCmd)

/-- The length-range check: `v ≤ MAX_LEN` (R77, R146). -/
def isLegalLength (v : Byte) : Bool := decide (v.toNat ≤ Config.maxLen)

/-- The command kinds in the listed order (R79). -/
def commandNames : List Config.CommandName :=
  [.speedRequest, .speedIndication, .currentOverflowIndication, .currentIndication, .rangeIndication]

/-- The command kind a code stands for under a pairing, if it is a command (R79). -/
def commandNamed (c : Config.CmdCode) (code : Byte) : Option Config.CommandName :=
  commandNames.find? (fun n => commandCode c n == code)

/-- `EXP_LEN` of a command kind (R6, R126 to R130). -/
def expLenOf : Config.CommandName → Config.ExpLen
  | .speedRequest => Config.expLenSpeedRequest
  | .speedIndication => Config.expLenSpeedIndication
  | .currentOverflowIndication => Config.expLenCurrentOverflow
  | .currentIndication => .exactly 3
  | .rangeIndication => .exactly 3

/-- `EXP_LEN(code)` under a pairing (R6). -/
def expLen (c : Config.CmdCode) (code : Byte) : Config.ExpLen :=
  match commandNamed c code with
  | some n => expLenOf n
  | none => Config.expLenUnknown code

/-- The size check against one expected length (R124). -/
def lengthMatches (e : Config.ExpLen) (len : Byte) : Bool :=
  match e with
  | .any => true
  | .exactly n => n.val == len.toNat

/-- `size_ok(cmd, len)` (R124). -/
def sizeOk (c : Config.CmdCode) (cmd len : Byte) : Bool := lengthMatches (expLen c cmd) len

/-- The 3-bit code of a phase (R22). -/
def phaseCode : Phase → BitVec 3
  | .idle => 0
  | .command => 1
  | .len => 2
  | .data => 3
  | .checksum => 4

/-- `ev_code` of an event (R200). -/
def eventCode : EventCode → BitVec 3
  | .badEscape => 1
  | .unknownCmd => 2
  | .badLen => 3
  | .badChecksum => 4
  | .sizeMismatch => 5

end Sys2Proof.Machine
end

