-- ==== Sys2Proof/Machine/Reassembler.lean ====
section
/-! DEFINITION. The reassembler's case rules (42_reassembler.md), one operation per rule, over the state at the start of the
transition with the decoder's new `esc_pending` already in it. -/

namespace Sys2Proof.Machine

/-- Frame start, in any phase (R141). -/
def onFrameStart (s : State) : State := { s with rxPhase := .command }

/-- A logical byte in COMMAND (R145). -/
def onCommand (v : Byte) (s : State) : State :=
  if isKnownCommand v then { s with rxCmd := v, rxPhase := .len } else s.raise .unknownCmd v

/-- A logical byte in LEN (R146). -/
def onLen (v : Byte) (s : State) : State :=
  if isLegalLength v then { s with rxLen := v, rxCur := 0, rxPhase := if v = 0 then .checksum else .data }
  else s.raise .badLen v

/-- A logical byte in DATA (R147): it is stored at `rx_cur`, which must be an index of the buffer (R50). -/
def onData (v : Byte) (s : State) : Result :=
  if s.rxCur.toNat < Config.maxLen then
    let n := s.rxCur + 1
    .next { s with rxBuf := s.rxBuf.write s.rxCur.toNat v, rxCur := n,
                   rxPhase := if n = s.rxLen then .checksum else .data }
  else .fault .bufferIndexOutOfRange

/-- The verdict on a received checksum byte, once the buffered payload is read: checksum, then size, then delivery (R125, R148). -/
def onVerdict (v : Byte) (payload : List Byte) (s : State) : State :=
  if v ≠ checksum s.rxCmd s.rxLen payload then s.raise .badChecksum v
  else if !sizeOk s.cmdCode s.rxCmd s.rxLen then s.raise .sizeMismatch s.rxLen
  else ({ s with rxPhase := .idle } : State).emitMsg s.rxCmd s.rxLen payload

/-- A logical byte in CHECKSUM (R122, R148). -/
def onChecksum (v : Byte) (s : State) : Result :=
  match bufReadFrom s.rxBuf 0 s.rxLen.toNat with
  | .error e => .fault e
  | .ok payload => .next (onVerdict v payload s)

/-- A logical byte, by phase (R140, R144 to R148). -/
def onByte (v : Byte) (s : State) : Result :=
  match s.rxPhase with
  | .idle => .next s
  | .command => .next (onCommand v s)
  | .len => .next (onLen v s)
  | .data => onData v s
  | .checksum => onChecksum v s

/-- The reassembler's step on a decoder result (R140 to R148). -/
def reassemble (r : DecResult) (s : State) : Result :=
  match r with
  | .sof => .next (onFrameStart s)
  | .none => .next s
  | .badEsc w => .next (s.raise .badEscape w)
  | .byte v => onByte v s

/-- The index of `rx_buf` that a logical byte is stored at, if the reassembler stores it (R51, R147). -/
def storeIndex (r : DecResult) (s : State) : Option Nat :=
  match r, s.rxPhase with
  | .byte _, .data => some s.rxCur.toNat
  | _, _ => none

end Sys2Proof.Machine
end

