-- ==== Sys2Proof/Machine/Receive.lean ====
section
/-! DEFINITION. RX_BYTE (R140) and the six decoder classes (R105 to R110). A class row is the RX_BYTE transition on a key of that class; the key
holds `esc_pending` before the byte as its bit 8, so the row is selected only in states that agree with it (R74). -/

namespace Sys2Proof.Machine

/-- The receive transition once the decoder has answered: `esc_pending` is written and the reassembler takes the result (R140). -/
def receive (d : Bool × DecResult) (s : State) : Result :=
  reassemble d.2 { s.begin with escPending := d.1 }

/-- RX_BYTE(w) (R140). -/
def execRxByte (w : Byte) (s : State) : Result := receive (decodeByte s.escPending w) s

/-- DEC_DELIM (R105), for the key whose bit 8 is `esc`. -/
def execDecDelim (esc : Bool) (s : State) : Result :=
  if s.escPending = esc then receive (false, .sof) s else .refused .notSelected

/-- DEC_ESC (R106). -/
def execDecEsc (s : State) : Result :=
  if s.escPending = false then receive (true, .none) s else .refused .notSelected

/-- DEC_ESC_DELIM (R108). -/
def execDecEscDelim (s : State) : Result :=
  if s.escPending = true then receive (false, .byte Config.delimiter) s else .refused .notSelected

/-- DEC_ESC_ESC (R109). -/
def execDecEscEsc (s : State) : Result :=
  if s.escPending = true then receive (false, .byte Config.escape) s else .refused .notSelected

/-- DEC_LIT (R107). -/
def execDecLit (w : Byte) (s : State) : Result :=
  if s.escPending = false ∧ w ≠ Config.delimiter ∧ w ≠ Config.escape then receive (false, .byte w) s
  else .refused .notSelected

/-- DEC_ESC_BAD (R110). -/
def execDecEscBad (w : Byte) (s : State) : Result :=
  if s.escPending = true ∧ w ≠ Config.delimiter ∧ w ≠ Config.escapeDelim ∧ w ≠ Config.escapeEscape then
    receive (false, .badEsc w) s
  else .refused .notSelected

end Sys2Proof.Machine
end

