-- ==== Sys2Proof/Machine/Commands.lean ====
section
/-! DEFINITION. The command rows: a value of the logical COMMAND byte (R78, R126 to R131). A row is the receive transition in which
that byte comes out of the decoder in the COMMAND phase (R145). In the other phases the same byte is a length, payload or
checksum byte, so no command row is selected there (R140). -/

namespace Sys2Proof.Machine

/-- A logical byte can come out of the decoder now: 0xC0 and 0xDB come escaped, every other byte plain (R107 to R109). -/
def canArrive (v : Byte) (s : State) : Bool := s.escPending == mustEscape v

/-- The COMMAND byte `v` of the frame in progress arrives (R104, R145). -/
def commandByte (v : Byte) (s : State) : Result :=
  if s.rxPhase = .command ∧ canArrive v s = true then receive (false, .byte v) s else .refused .notSelected

/-- SpeedRequest (R126). -/
def execSpeedRequest (s : State) : Result := commandByte (commandCode s.cmdCode .speedRequest) s

/-- SpeedIndication (R127). -/
def execSpeedIndication (s : State) : Result := commandByte (commandCode s.cmdCode .speedIndication) s

/-- CurrentOverflowIndication (R128). -/
def execCurrentOverflowIndication (s : State) : Result :=
  commandByte (commandCode s.cmdCode .currentOverflowIndication) s

/-- CurrentIndication (R129). -/
def execCurrentIndication (s : State) : Result := commandByte (commandCode s.cmdCode .currentIndication) s

/-- RangeIndication (R130). -/
def execRangeIndication (s : State) : Result := commandByte (commandCode s.cmdCode .rangeIndication) s

/-- CMD_RESERVED (R131); codes 0..4 are not in the row's range (R78). -/
def execCmdReserved (c : Byte) (s : State) : Result :=
  if isKnownCommand c then .refused .notSelected else commandByte c s

end Sys2Proof.Machine
end

