-- ==== Sys2Proof/Machine/Reset.lean ====
section
/-! DEFINITION. RESET (70_reset_and_hazards.md R230). -/

namespace Sys2Proof.Machine

/-- RESET (R230). The registers it leaves unspecified take free values drawn at this transition (log entry 2), and no byte of
`rx_buf` has a value (log entry 3). No output. -/
def execReset (s : State) : Result :=
  .next { s.begin with
    escPending := false
    rxPhase := .idle
    rxCmd := Config.freeByte .rxCmd s.tick
    rxLen := Config.freeByte .rxLen s.tick
    rxCur := Config.freeByte .rxCur s.tick
    rxBuf := []
    txOut := [] }

end Sys2Proof.Machine
end

