-- ==== Sys2Proof/Machine/Transmit.lean ====
section
/-! DEFINITION. The transmit side: TX_FRAME and TX_POP (43_tx_framer.md). -/

namespace Sys2Proof.Machine

/-- A TX_FRAME request the port refuses whatever the state: `tx_cmd ≥ N_CMD` or `tx_len > MAX_LEN` (R171). -/
def isBadRequest (cmd len : Byte) : Bool := !isKnownCommand cmd || !isLegalLength len

/-- TX_FRAME (R170, R171). -/
def execTxFrame (cmd len : Byte) (payload : List Byte) (s : State) : Result :=
  if s.txOut ≠ [] then .refused .txBusy
  else if isBadRequest cmd len then .refused .txBadRequest
  else if payload.length ≠ len.toNat then .refused .txPayloadLength
  else .next (s.begin.pushWire (wireFrame cmd len payload))

/-- TX_POP (R172). -/
def execTxPop (s : State) : Result :=
  match s.txOut with
  | [] => .refused .noWireByte
  | b :: rest => .next { s.begin with txOut := rest, out := { Outputs.none with wire := some b } }

end Sys2Proof.Machine
end

