-- ==== Sys2Proof/Machine/Dispatch.lean ====
section
/-! DEFINITION. One arm per row of the opcode table. -/

namespace Sys2Proof.Machine

def exec (i : Instr) (s : State) : Host.Outcome State Fault Refusal :=
  match i with
  | .rxByte w => Sys2Proof.Machine.execRxByte w s
  | .txFrame cmd len payload => Sys2Proof.Machine.execTxFrame cmd len payload s
  | .txPop => Sys2Proof.Machine.execTxPop s
  | .reset => Sys2Proof.Machine.execReset s
  | .decDelim esc => Sys2Proof.Machine.execDecDelim esc s
  | .decEsc => Sys2Proof.Machine.execDecEsc s
  | .decEscDelim => Sys2Proof.Machine.execDecEscDelim s
  | .decEscEsc => Sys2Proof.Machine.execDecEscEsc s
  | .decLit w => Sys2Proof.Machine.execDecLit w s
  | .decEscBad w => Sys2Proof.Machine.execDecEscBad w s
  | .encDelim => Sys2Proof.Machine.execEncDelim s
  | .encEsc => Sys2Proof.Machine.execEncEsc s
  | .encLit b => Sys2Proof.Machine.execEncLit b s
  | .speedRequest => Sys2Proof.Machine.execSpeedRequest s
  | .speedIndication => Sys2Proof.Machine.execSpeedIndication s
  | .currentOverflowIndication => Sys2Proof.Machine.execCurrentOverflowIndication s
  | .currentIndication => Sys2Proof.Machine.execCurrentIndication s
  | .rangeIndication => Sys2Proof.Machine.execRangeIndication s
  | .cmdReserved c => Sys2Proof.Machine.execCmdReserved c s

end Sys2Proof.Machine
end

