-- ==== Sys2Proof/Machine/Ports.lean ====
section
/-! DEFINITION. The output ports as functions of the state (R35 to R40). While a port's valid line is 0 its data lines carry no meaning: they
show free values (93_implementation_defined.md §1, log entries 2 and 11). Reading a port
changes no state (R59), so these are functions and not transitions. -/

namespace Sys2Proof.Machine

/-- `tx_ready`: 1 exactly when `tx_out` is empty (R37). -/
def txReady (s : State) : Bool := s.txOut.isEmpty

/-- `wire_valid`: 1 exactly when `tx_out` is not empty (R40). -/
def wireValid (s : State) : Bool := !s.txOut.isEmpty

/-- `wire_byte`: the first byte of `tx_out` (R40). -/
def wireByte (s : State) : Byte := s.txOut.head?.getD (Config.freeByte .wireByte s.tick)

/-- `msg_valid` (R38). -/
def msgValid (s : State) : Bool := s.out.msg.isSome

/-- `msg_cmd` (R38). -/
def msgCmd (s : State) : Byte := (s.out.msg.map Message.cmd).getD (Config.freeByte .msgCmd s.tick)

/-- `msg_len` (R38). -/
def msgLen (s : State) : Byte := (s.out.msg.map Message.len).getD (Config.freeByte .msgLen s.tick)

/-- `msg_rd_data` at `msg_rd_addr` = `addr` (R38, R52): the byte of `rx_buf` in the delivering transition below `msg_len`, else
a byte no rule defines (R53). -/
def msgRdData (s : State) (addr : Byte) : Byte :=
  match s.out.msg with
  | none => Config.freeByte (.msgRdData addr) s.tick
  | some m =>
    if addr.toNat < m.len.toNat then (s.rxBuf.read addr.toNat).getD (Config.freeByte (.msgRdData addr) s.tick)
    else Config.freeByte (.msgRdData addr) s.tick

/-- `ev_valid` (R39). -/
def evValid (s : State) : Bool := s.out.ev.isSome

/-- `ev_code` (R39, R200): the code of the event; with no event any value (93_implementation_defined.md §1, log entry 11). -/
def evCode (s : State) : BitVec 3 :=
  (s.out.ev.map (fun e => eventCode e.code)).getD ((Config.freeByte .evCode s.tick).setWidth 3)

/-- `ev_info` (R39, R200). -/
def evInfo (s : State) : Byte := (s.out.ev.map Event.info).getD (Config.freeByte .evInfo s.tick)

/-- All output ports of the block together (R35). -/
structure PortOutputs where
  msgValid : Bool
  msgCmd : Byte
  msgLen : Byte
  msgRdData : Byte
  evValid : Bool
  evCode : BitVec 3
  evInfo : Byte
  txReady : Bool
  wireValid : Bool
  wireByte : Byte
  deriving DecidableEq, Repr

/-- The output ports in a state, with `msg_rd_addr` = `addr` (R35). -/
def portOutputs (addr : Byte) (s : State) : PortOutputs :=
  { msgValid := msgValid s, msgCmd := msgCmd s, msgLen := msgLen s, msgRdData := msgRdData s addr,
    evValid := evValid s, evCode := evCode s, evInfo := evInfo s,
    txReady := txReady s, wireValid := wireValid s, wireByte := wireByte s }

end Sys2Proof.Machine
end

