-- ==== Sys2Proof/Machine/Fetch.lean ====
section
/-! DEFINITION. How a step finds its operations: the host's port levels select them (R36, R37, R40, R41, R87), or a key of the table is
presented to its unit (log entry 7). -/

namespace Sys2Proof.Machine

/-- The port levels of a step: what the host drives, and the block's `tx_ready` and `wire_valid` (R35). -/
def portLevels (p : PortInputs) (s : State) : PortLevels :=
  { rst := p.rst, rxValid := p.rxValid, rxByte := p.rxByte, txValid := p.txValid, txReady := txReady s,
    txCmd := p.txCmd, txLen := p.txLen, txPayload := p.txPayload, wireValid := wireValid s,
    wireReady := p.wireReady }

/-- An operation the port does not accept although its condition holds: a TX_FRAME request with an unknown command or
a length above 254, which changes no state (R171). -/
def isPortRefused : Instr → Bool
  | .txFrame cmd len _ => isBadRequest cmd len
  | _ => false

/-- The operations a step with these port inputs performs, receive side first (R87, R171, R232). -/
def selectedOps (p : PortInputs) (s : State) : List Instr :=
  (decodePorts (portLevels p s)).filter (fun i => !isPortRefused i)

/-- Perform the operations of one step; the outputs of the step are those of all of them (R63). With none, the step is idle (R241). -/
def performTogether : List Instr → State → Result
  | [], s => .next s.begin
  | [i], s => exec i s
  | i :: rest, s =>
    match exec i s with
    | .next a =>
      match performTogether rest a with
      | .next b => .next { b with out := a.out.merge b.out }
      | .fault r => .fault r
      | .refused r => .refused r
    | .fault r => .fault r
    | .refused r => .refused r

/-- The step on one stimulus. -/
def performStimulus (x : Stimulus) (s : State) : Result :=
  match x with
  | .ports p => performTogether (selectedOps p s) s
  | .key f k =>
    match decodeKey s.cmdCode f k with
    | .ok i => exec i s
    | .error _ => .refused .undecodable

/-- Take the next stimulus and perform it; with none left the step is idle (R90: the block itself never stops). -/
def runNext (s : State) : Result :=
  match s.stimuli with
  | [] => .next s.begin
  | x :: rest => performStimulus x { s with stimuli := rest }

/-- Put a key in front of the stimuli, and set what its row needs to be selected: for a DEC9 key `esc_pending` is its bit 8
(R74); for a CMD8 key the phase is COMMAND and the byte comes escaped if it must (R78, R107 to R109). -/
def placeKey (f : KeyFormat) (k : Nat) (s : State) : State :=
  let s := { s with stimuli := .key f k :: s.stimuli }
  match f with
  | .dec9 => { s with escPending := k.testBit 8 }
  | .enc8 => s
  | .cmd8 => { s with rxPhase := .command, escPending := mustEscape (BitVec.ofNat 8 k) }

/-- Place a word of the opcode table as the next stimulus (log entry 8); a word the decoder reads no format from is placed as
a key that no row matches. -/
def placeTableWord (nbits w : Nat) (s : State) : State :=
  match tableKey nbits w with
  | some (f, k) => placeKey f k s
  | none => { s with stimuli := .key .dec9 512 :: s.stimuli }

end Sys2Proof.Machine
end

