-- ==== Sys2Proof/Machine/Step.lean ====
section
/-! DEFINITION. One step of the block: the next stimulus of the host, performed. -/

namespace Sys2Proof.Machine

/-- One step (R10, R241). -/
def step (s : State) : Host.Outcome State Fault Refusal := Sys2Proof.Machine.runNext s

/-- `s` with a word of the opcode table as the next step's stimulus. -/
def State.withFetchWord (s : State) (nbits w : Nat) : State := Sys2Proof.Machine.placeTableWord nbits w s

end Sys2Proof.Machine
end

