-- ==== Sys2Proof/Machine/Payload.lean ====
section
/-! DEFINITION. How a consumer reads the fields of a delivered payload (R56, R80, R81, R84). The block itself does none of it (R85);
no meaning uses these. -/

namespace Sys2Proof.Machine

/-- A little-endian u16 field at payload index `k` (R84). -/
def payloadU16 (p : List Byte) (k : Nat) : Option (BitVec 16) :=
  match p[k]?, p[k + 1]? with
  | some lo, some hi => some (lo.setWidth 16 ||| (hi.setWidth 16 <<< 8))
  | _, _ => none

/-- The fields `current` and `motor` of a CurrentIndication payload (R80). -/
def currentFields (p : List Byte) : Option (BitVec 16 × Byte) :=
  match p with
  | [_, _, motor] => (payloadU16 p 0).map (fun c => (c, motor))
  | _ => none

/-- The fields `range` and `sensor` of a RangeIndication payload (R81). -/
def rangeFields (p : List Byte) : Option (BitVec 16 × Byte) :=
  match p with
  | [_, _, sensor] => (payloadU16 p 0).map (fun r => (r, sensor))
  | _ => none

end Sys2Proof.Machine
end

