-- ==== Sys2Proof/Machine/Script.lean ====
section
/-! DEFINITION. Runs of operations with everything they put out, and the stimulus scripts of R89 and R90 with their text form. A script
performs operations one after another; it is how the spec writes programs for this block. -/

namespace Sys2Proof.Machine

/-- One item of a run's output: a message, an event or a wire byte (R90). -/
inductive Output where
  | msg (m : Message)
  | event (e : Event)
  | wire (b : Byte)
  deriving DecidableEq, Repr

/-- What one transition put out on the block's ports. -/
def outputsOf (o : Outputs) : List Output :=
  (o.msg.map Output.msg).toList ++ (o.ev.map Output.event).toList ++ (o.wire.map Output.wire).toList

/-- The end state of a run and its outputs in order (R90), or the stop it meets. -/
abbrev RunResult := Host.Outcome (State × List Output) Fault Refusal

/-- Perform operations in order from a state, collecting outputs (R90). What becomes of a run that meets an operation with no step (R171,
R172) the spec does not say: DESIGN CHOICE, the run answers that stop, without the outputs before it, and performs nothing after it
(log entry 21). -/
def runOps : List Instr → State → RunResult
  | [], s => .next (s, [])
  | i :: is, s =>
    match exec i s with
    | .next t =>
      match runOps is t with
      | .next (u, os) => .next (u, outputsOf t.out ++ os)
      | .fault r => .fault r
      | .refused r => .refused r
    | .fault r => .fault r
    | .refused r => .refused r

/-- Take wire bytes one RX_BYTE each (the script line `rx NN NN ...`, R89). -/
def runBytes (ws : List Byte) (s : State) : RunResult := runOps (ws.map Instr.rxByte) s

/-- Take `n` steps on what the host presents, collecting their outputs. -/
def runSteps : Nat → State → RunResult
  | 0, s => .next (s, [])
  | n + 1, s =>
    match step s with
    | .next t =>
      match runSteps n t with
      | .next (u, os) => .next (u, outputsOf t.out ++ os)
      | .fault r => .fault r
      | .refused r => .refused r
    | .fault r => .fault r
    | .refused r => .refused r

/-- A line of a stimulus script (R89). -/
inductive Line where
  | reset
  | rx (bytes : List Byte)
  | tx (cmd : Byte) (payload : List Byte)
  | pop
  | popAll
  | comment
  deriving DecidableEq, Repr

/-- The operations a line performs from a state (R89). -/
def lineOps (l : Line) (s : State) : List Instr :=
  match l with
  | .reset => [.reset]
  | .rx bytes => bytes.map Instr.rxByte
  | .tx cmd payload => [.txFrame cmd (BitVec.ofNat 8 payload.length) payload]
  | .pop => [.txPop]
  | .popAll => List.replicate s.txOut.length .txPop
  | .comment => []

/-- Run a script: the run ends when its last line has been performed (R90). A `tx` line that R171 refuses and a `pop` line with `tx_out`
empty end it before: DESIGN CHOICE, as for `runOps` (log entry 21). -/
def runScript : List Line → State → RunResult
  | [], s => .next (s, [])
  | l :: ls, s =>
    match runOps (lineOps l s) s with
    | .next (t, os) =>
      match runScript ls t with
      | .next (u, os') => .next (u, os ++ os')
      | .fault r => .fault r
      | .refused r => .refused r
    | .fault r => .fault r
    | .refused r => .refused r

/-! ## The text of a script line (R89) -/

/-- The value of a hexadecimal digit. -/
def hexDigit (c : Char) : Option Nat :=
  if 48 ≤ c.toNat && c.toNat ≤ 57 then some (c.toNat - 48)
  else if 65 ≤ c.toNat && c.toNat ≤ 70 then some (c.toNat - 55)
  else if 97 ≤ c.toNat && c.toNat ≤ 102 then some (c.toNat - 87)
  else none

/-- A two-digit hexadecimal byte (R8). -/
def hexByte (cs : List Char) : Option Byte :=
  match cs with
  | [a, b] =>
    match hexDigit a, hexDigit b with
    | some x, some y => some (BitVec.ofNat 8 (16 * x + y))
    | _, _ => none
  | _ => none

/-- Several hexadecimal bytes. -/
def hexBytes : List (List Char) → Option (List Byte)
  | [] => some []
  | w :: ws =>
    match hexByte w, hexBytes ws with
    | some b, some bs => some (b :: bs)
    | _, _ => none

/-- What stands before a `;`. -/
def beforeComment : List Char → List Char
  | [] => []
  | c :: cs => if c = ';' then [] else c :: beforeComment cs

/-- The words of a line, with `cur` the letters of the word being read, in order. -/
def wordsFrom (cur : List Char) : List Char → List (List Char)
  | [] => if cur.isEmpty then [] else [cur]
  | c :: cs =>
    if c = ' ' then (if cur.isEmpty then wordsFrom [] cs else cur :: wordsFrom [] cs)
    else wordsFrom (cur ++ [c]) cs

/-- Read a script line (R89). DESIGN CHOICE (log entry 21), for what R89 does not say: words are parted by spaces
and digits may be of either case; a comment may follow an operation; an empty line performs nothing; an `rx` line with no byte listed is a
line and performs nothing; other text is no line. -/
def parseLine (cs : List Char) : Option Line :=
  match wordsFrom [] (beforeComment cs) with
  | [] => some .comment
  | w :: args =>
    if w = ['r', 'e', 's', 'e', 't'] then (if args.isEmpty then some .reset else none)
    else if w = ['p', 'o', 'p'] then (if args.isEmpty then some .pop else none)
    else if w = ['p', 'o', 'p', '*'] then (if args.isEmpty then some .popAll else none)
    else if w = ['r', 'x'] then (hexBytes args).map Line.rx
    else if w = ['t', 'x'] then
      match hexBytes args with
      | some (cmd :: payload) => some (.tx cmd payload)
      | _ => none
    else none

end Sys2Proof.Machine
end

