-- ==== Sys2Proof/Safety.lean ====
section
/-! DEFINITION. What counts as a sound state and a safe run, in the terms the statements use. -/

namespace Sys2Proof.Safety

open Sys2Proof.Machine

/-- A frame's command is held: the phases LEN, DATA and CHECKSUM (R30). -/
abbrev HoldsCommand (s : State) : Prop := s.rxPhase = .len ∨ s.rxPhase = .data ∨ s.rxPhase = .checksum

/-- A frame's length is held: the phases DATA and CHECKSUM (R30). -/
abbrev HoldsLength (s : State) : Prop := s.rxPhase = .data ∨ s.rxPhase = .checksum

/-- The receive-side invariant, clause by clause as R30 lists it. -/
abbrev RxInv (s : State) : Prop :=
  (HoldsCommand s → s.rxCmd.toNat < Config.nCmd) ∧
  (HoldsLength s → s.rxLen.toNat ≤ Config.maxLen) ∧
  (s.rxPhase = .data → s.rxCur.toNat < s.rxLen.toNat) ∧
  (s.rxPhase = .checksum → s.rxCur = s.rxLen) ∧
  (HoldsLength s → ∀ i, i < s.rxCur.toNat → (s.rxBuf.read i).isSome = true)

/-- The payload buffer is in its canonical form: indices strictly rising, all in 0..253 (R50). -/
abbrev BufInv (s : State) : Prop := s.rxBuf.wf = true

/-- A wire frame TX_FRAME can push: a known command, a legal length, that many payload bytes (R170, R171). -/
def IsWireFrame (xs : List Byte) : Prop :=
  ∃ cmd len : Byte, ∃ p : List Byte,
    cmd.toNat < Config.nCmd ∧ len.toNat ≤ Config.maxLen ∧ p.length = len.toNat ∧ xs = wireFrame cmd len p

/-- `tx_out` holds what is left of at most one frame (R28). -/
def TxInv (s : State) : Prop := s.txOut = [] ∨ ∃ xs, IsWireFrame xs ∧ s.txOut <:+ xs

/-- The rows whose transition takes a wire byte: RX_BYTE, the decoder classes and the command rows. -/
def isReceiveRow : Instr → Bool
  | .rxByte _ => true
  | .decDelim _ => true
  | .decEsc => true
  | .decEscDelim => true
  | .decEscEsc => true
  | .decLit _ => true
  | .decEscBad _ => true
  | .speedRequest => true
  | .speedIndication => true
  | .currentOverflowIndication => true
  | .currentIndication => true
  | .rangeIndication => true
  | .cmdReserved _ => true
  | .txFrame _ _ _ => false
  | .txPop => false
  | .reset => false
  | .encDelim => false
  | .encEsc => false
  | .encLit _ => false

/-- The transmit operations. -/
def isTransmitRow : Instr → Bool
  | .txFrame _ _ _ => true
  | .txPop => true
  | _ => false

/-- The host keeps the port's form: it drives at least `tx_len` payload bytes with every request the block can accept (R37). -/
abbrev DrivesPayload (p : PortInputs) : Prop :=
  p.txValid = true → p.txLen.toNat ≤ Config.maxLen → p.txLen.toNat ≤ p.txPayload.length

/-- The host presents at most a wire byte: no reset, no request, and the wire takes nothing. -/
def receivesOnly (p : PortInputs) : Bool := !p.rst && !p.txValid && !p.wireReady

/-- The wire bytes that port inputs present, in order. -/
def presentedBytes (ps : List PortInputs) : List Byte :=
  ps.filterMap (fun p => if p.rxValid then some p.rxByte else none)

/-- An outcome is a next state: the block goes on. -/
def GoesOn {σ : Type} (o : Host.Outcome σ Fault Refusal) : Prop := ∃ t, o = .next t

/-- The messages among a run's outputs. -/
def messagesOf (os : List Output) : List Message :=
  os.filterMap (fun o => match o with | .msg m => some m | .event _ => none | .wire _ => none)

/-- The logical bytes among decoder results, with frame starts and violations kept: all but `NONE` (R114). -/
def withoutNone (rs : List DecResult) : List DecResult := rs.filter (fun r => r != .none)

end Sys2Proof.Safety
end

