-- ==== Sys2Proof/Certificates/Slice0/Obligations.lean ====
section
/-! DEFINITION. The statements about the block, each from the spec's rules. `tick` and `stimuli` are the model's own fields (log entries 2
and 6); a statement names them only to say that nothing else changes. -/

open Sys2Proof Sys2Proof.Machine Sys2Proof.Safety

/-! ## Encodings -/

/-- R74, R75, R78, R79: words of the table, written out bit by bit, decode to their rows. The two command words name the rows that stand at
0 and 3 at the default of `CMD_CODE`, for which the table is printed (log entry 13). -/
def Obligations.TableWordsDecodeToTheirRows : Prop :=
  decodeKey .listed .dec9 0b011000000 = .ok (.decDelim false) ∧
  decodeKey .listed .dec9 0b111000000 = .ok (.decDelim true) ∧
  decodeKey .listed .dec9 0b011011011 = .ok .decEsc ∧
  decodeKey .listed .dec9 0b111011100 = .ok .decEscDelim ∧
  decodeKey .listed .dec9 0b111011101 = .ok .decEscEsc ∧
  decodeKey .listed .dec9 0b001000001 = .ok (.decLit 0x41) ∧
  decodeKey .listed .dec9 0b111011011 = .ok (.decEscBad 0xDB) ∧
  decodeKey .listed .enc8 0b11000000 = .ok .encDelim ∧
  decodeKey .listed .enc8 0b11011011 = .ok .encEsc ∧
  decodeKey .listed .enc8 0b11011100 = .ok (.encLit 0xDC) ∧
  decodeKey .listed .cmd8 0b00000000 = .ok .speedRequest ∧
  decodeKey .listed .cmd8 0b00000011 = .ok .currentIndication ∧
  decodeKey .listed .cmd8 0b00000101 = .ok (.cmdReserved 5)

/-- R74, R75, R79, INDEX.md: at every `CMD_CODE`, within a format exactly one row matches each key, and no row matches a wider one. -/
def Obligations.EveryKeyHitsExactlyOneRow : Prop :=
  ∀ (c : Config.CmdCode) (f : KeyFormat) (k : Nat),
    (k < 2 ^ f.width → f.rows.countP (fun r => (r.pattern c).hits k) = 1) ∧
    (2 ^ f.width ≤ k → decodeKey c f k = .error .keyTooWide)

/-- Decode inverts encode, for every well-formed row with every operand, at every `CMD_CODE`. -/
def Obligations.DecodeInvertsEncodeOnRows : Prop :=
  ∀ (c : Config.CmdCode) (i : Instr), i.wellFormed = true → decode c (encode c i) = .ok [i]

/-- Every key has one meaning: the row it decodes to is well formed and encodes to that key. -/
def Obligations.EncodeInvertsDecodeOnKeys : Prop :=
  ∀ (c : Config.CmdCode) (f : KeyFormat) (k : Nat) (i : Instr),
    decodeKey c f k = .ok i → i.wellFormed = true ∧ encode c i = .key f k

/-! ## Steps -/

/-- A step runs the decoded instruction: with a key in front, `step` is `exec` of its row in the state without that stimulus. -/
def Obligations.StepRunsThePresentedRow : Prop :=
  ∀ (s : State) (f : KeyFormat) (k : Nat) (rest : List Stimulus) (i : Instr),
    s.stimuli = .key f k :: rest → decodeKey s.cmdCode f k = .ok i →
    step s = exec i { s with stimuli := rest }

/-- R41, R232: with `rst` = 1 the step is RESET, whatever else is presented. -/
def Obligations.ResetPortExcludesTheOthers : Prop :=
  ∀ (s : State) (p : PortInputs) (rest : List Stimulus),
    s.stimuli = .ports p :: rest → p.rst = true → step s = exec .reset { s with stimuli := rest }

/-- R36, R37, R40, R87, R171: one operation's port condition holds and the step is that operation. RX_BYTE is alone when the transmit side
has no request, is busy or refuses the request, and the wire takes nothing. -/
def Obligations.StepPerformsTheSelectedOperation : Prop :=
  ∀ (s : State) (p : PortInputs) (rest : List Stimulus),
    s.stimuli = .ports p :: rest → p.rst = false →
    (p.rxValid = true → (p.txValid = false ∨ s.txOut ≠ [] ∨ 5 ≤ p.txCmd.toNat ∨ 254 < p.txLen.toNat) →
      (p.wireReady = false ∨ s.txOut = []) →
      step s = exec (.rxByte p.rxByte) { s with stimuli := rest }) ∧
    (p.rxValid = false → p.txValid = true → s.txOut = [] → p.txCmd.toNat < 5 → p.txLen.toNat ≤ 254 →
      step s = exec (.txFrame p.txCmd p.txLen (p.txPayload.take p.txLen.toNat)) { s with stimuli := rest }) ∧
    (p.rxValid = false → p.wireReady = true → s.txOut ≠ [] →
      step s = exec .txPop { s with stimuli := rest })

/-- R63, R87: RX_BYTE and a transmit operation in one step are both performed; the outputs of the step are those of both. That the model
performs RX_BYTE first, merges the outputs and advances its `tick` for each is the model's reading (log entry 14). -/
def Obligations.StepPerformsBothSides : Prop :=
  ∀ (s a b : State) (p : PortInputs) (rest : List Stimulus) (i : Instr),
    s.stimuli = .ports p :: rest → p.rst = false → p.rxValid = true →
    ((p.txValid = true ∧ s.txOut = [] ∧ p.txCmd.toNat < 5 ∧ p.txLen.toNat ≤ 254 ∧
        i = .txFrame p.txCmd p.txLen (p.txPayload.take p.txLen.toNat)) ∨
      (p.wireReady = true ∧ s.txOut ≠ [] ∧ i = .txPop)) →
    exec (.rxByte p.rxByte) { s with stimuli := rest } = .next a → exec i a = .next b →
    step s = .next { b with out := a.out.merge b.out }

/-- R171: a request the port refuses changes no state; with nothing else presented the step is idle, with a wire byte beside it the step is
that RX_BYTE. -/
def Obligations.RefusedRequestChangesNothing : Prop :=
  ∀ (s : State) (p : PortInputs) (rest : List Stimulus),
    s.stimuli = .ports p :: rest → p.rst = false → p.txValid = true →
    s.txOut = [] → (5 ≤ p.txCmd.toNat ∨ 254 < p.txLen.toNat) →
    (p.rxValid = false → step s = .next { s with stimuli := rest, out := Outputs.none, tick := s.tick + 1 }) ∧
    (p.rxValid = true → step s = exec (.rxByte p.rxByte) { s with stimuli := rest })

/-- R29, R241: with nothing presented a step is idle: all state persists, and no output is valid. -/
def Obligations.IdleStepKeepsAllState : Prop :=
  ∀ s : State, s.stimuli = [] → step s = .next { s with out := Outputs.none, tick := s.tick + 1 }

/-! ## Reset -/

/-- R20, R21, R27: what the spec says of the state after reset, at every `CMD_CODE`; `State.reset` is the one at the default (log entry 13).
The zero in `rx_cmd`, `rx_len` and `rx_cur` is the model's choice (log entry 1), and nothing is said of it. -/
def Obligations.ResetStateIsAsSpecified : Prop :=
  State.reset = State.resetWith .listed ∧
  ∀ c : Config.CmdCode,
    (State.resetWith c).escPending = false ∧ (State.resetWith c).rxPhase = .idle ∧ (State.resetWith c).txOut = [] ∧
    (State.resetWith c).cmdCode = c ∧ txReady (State.resetWith c) = true ∧ wireValid (State.resetWith c) = false ∧
    msgValid (State.resetWith c) = false ∧ evValid (State.resetWith c) = false

/-- R230: RESET from any state, without outputs. Nothing is said of `rx_cmd`, `rx_len`, `rx_cur` and `rx_buf`, which it leaves
unspecified. -/
def Obligations.ResetOperationClearsTheBlock : Prop :=
  ∀ s : State, ∃ t, exec .reset s = .next t ∧
    t.escPending = false ∧ t.rxPhase = .idle ∧ t.txOut = [] ∧ t.out = Outputs.none ∧ t.stimuli = s.stimuli ∧
    t.cmdCode = s.cmdCode

/-- R231: the result of RESET does not depend on the state. The first two premises are about the model's own fields: `tick` numbers the draws
of the unspecified values (log entry 2), `stimuli` is the host's (log entry 6); the third says that the block is the same, with one
`CMD_CODE` (log entry 13). -/
def Obligations.ResetForgetsTheState : Prop :=
  ∀ s s' : State, s.tick = s'.tick → s.stimuli = s'.stimuli → s.cmdCode = s'.cmdCode →
    exec .reset s = exec .reset s'

/-- R233: after RESET, bytes without a DELIMITER are ignored, but for EV_BAD_ESCAPE. -/
def Obligations.AfterResetBytesAreIgnoredUntilDelimiter : Prop :=
  ∀ (s t : State) (ws : List Byte), exec .reset s = .next t → 0xC0#8 ∉ ws →
    ∃ u os, runBytes ws t = .next (u, os) ∧ u.rxPhase = .idle ∧ u.rxBuf = t.rxBuf ∧
      ∀ o ∈ os, ∃ w, o = .event ⟨.badEscape, w⟩

/-! ## The codec -/

/-- R100 to R103: the three answers of `encode_byte`, and the rows that show them, which change no state of the block. That
an encoder row's answer is seen in the output `enc` is the model's choice (log entry 7). -/
def Obligations.EncoderRowsAnswerAsSpecified : Prop :=
  encodeByte 0xC0#8 = [0xDB#8, 0xDC#8] ∧ encodeByte 0xDB#8 = [0xDB#8, 0xDD#8] ∧
  (∀ b : Byte, b ≠ 0xC0#8 → b ≠ 0xDB#8 → encodeByte b = [b]) ∧
  ∀ s : State,
    exec .encDelim s =
      .next { s with out := { Outputs.none with enc := some [0xDB#8, 0xDC#8] }, tick := s.tick + 1 } ∧
    exec .encEsc s =
      .next { s with out := { Outputs.none with enc := some [0xDB#8, 0xDD#8] }, tick := s.tick + 1 } ∧
    ∀ b : Byte, b ≠ 0xC0#8 → b ≠ 0xDB#8 →
      exec (.encLit b) s =
        .next { s with out := { Outputs.none with enc := some [b] }, tick := s.tick + 1 }

/-- R104 to R110: `decode_byte`, case by case. -/
def Obligations.DecodeByteFollowsItsTable : Prop :=
  ∀ (esc : Bool) (w : Byte),
    decodeByte esc 0xC0#8 = (false, .sof) ∧
    decodeByte false 0xDB#8 = (true, .none) ∧
    (w ≠ 0xC0#8 → w ≠ 0xDB#8 → decodeByte false w = (false, .byte w)) ∧
    decodeByte true 0xDC#8 = (false, .byte 0xC0#8) ∧
    decodeByte true 0xDD#8 = (false, .byte 0xDB#8) ∧
    (w ≠ 0xC0#8 → w ≠ 0xDC#8 → w ≠ 0xDD#8 → decodeByte true w = (false, .badEsc w))

/-- R113: escape-freedom, and that the only 0xC0 of a wire frame is its first byte. -/
def Obligations.EncodedBytesHoldNoDelimiter : Prop :=
  (∀ xs : List Byte, 0xC0#8 ∉ encodeBytes xs ∧
    ∀ i, (encodeBytes xs)[i]? = some 0xDB#8 →
      (encodeBytes xs)[i + 1]? = some 0xDC#8 ∨ (encodeBytes xs)[i + 1]? = some 0xDD#8) ∧
  (∀ (cmd len : Byte) (p : List Byte), ∃ rest, wireFrame cmd len p = 0xC0#8 :: rest ∧ 0xC0#8 ∉ rest)

/-- R114: decode inverts encode, from no escape pending, after dropping the `NONE` results. -/
def Obligations.DecodeBytesInvertsEncodeBytes : Prop :=
  ∀ xs : List Byte,
    (decodeBytes false (encodeBytes xs)).1 = false ∧
    withoutNone (decodeBytes false (encodeBytes xs)).2 = xs.map DecResult.byte

/-- R121: the checksum does not depend on the order of folding, and can be folded as bytes arrive. -/
def Obligations.ChecksumFoldsInAnyOrder : Prop :=
  (∀ xs ys : List Byte, xs.Perm ys → xorFold 0xFF#8 xs = xorFold 0xFF#8 ys) ∧
  (∀ (cmd len b : Byte) (p : List Byte), checksum cmd len (p ++ [b]) = checksum cmd len p ^^^ b) ∧
  (∀ cmd len : Byte, checksum cmd len [] = 0xFF#8 ^^^ cmd ^^^ len)

/-- R132, first bullet: changing any one payload byte, or the command byte, changes the checksum. -/
def Obligations.ChecksumDetectsOneChangedByte : Prop :=
  ∀ (cmd len : Byte) (p : List Byte),
    (∀ (i : Nat) (b old : Byte), p[i]? = some old → b ≠ old → checksum cmd len (p.set i b) ≠ checksum cmd len p) ∧
    (∀ cmd', cmd' ≠ cmd → checksum cmd' len p ≠ checksum cmd len p)

/-- R76: a wire frame has 4 to 512 bytes, and both bounds are met. -/
def Obligations.WireFrameLengthBounds : Prop :=
  (∀ xs, IsWireFrame xs → 4 ≤ xs.length ∧ xs.length ≤ 512) ∧
  (∃ xs, IsWireFrame xs ∧ xs.length = 4) ∧ (∃ xs, IsWireFrame xs ∧ xs.length = 512)

/-! ## The receive side, rule by rule -/

/-- R105, R141: frame start, in any phase, escape pending or not; by RX_BYTE and by its class row. -/
def Obligations.DelimiterStartsAFrame : Prop :=
  ∀ s : State,
    exec (.rxByte 0xC0#8) s =
      .next { s with escPending := false, rxPhase := .command, out := Outputs.none, tick := s.tick + 1 } ∧
    exec (.decDelim s.escPending) s =
      .next { s with escPending := false, rxPhase := .command, out := Outputs.none, tick := s.tick + 1 }

/-- R106, R142: an ESCAPE with none pending begins an escape and changes nothing else. -/
def Obligations.EscapeByteBeginsAnEscape : Prop :=
  ∀ s : State, s.escPending = false →
    exec (.rxByte 0xDB#8) s =
      .next { s with escPending := true, out := Outputs.none, tick := s.tick + 1 } ∧
    exec .decEsc s = .next { s with escPending := true, out := Outputs.none, tick := s.tick + 1 }

/-- R110, R143, R201: a bad byte after ESCAPE discards the frame in flight and raises EV_BAD_ESCAPE, in any phase. -/
def Obligations.BadEscapeDiscardsTheFrame : Prop :=
  ∀ (s : State) (w : Byte), s.escPending = true → w ≠ 0xC0#8 → w ≠ 0xDC#8 → w ≠ 0xDD#8 →
    exec (.rxByte w) s =
      .next { s with escPending := false, rxPhase := .idle, tick := s.tick + 1,
                     out := { Outputs.none with ev := some ⟨.badEscape, w⟩ } } ∧
    exec (.decEscBad w) s =
      .next { s with escPending := false, rxPhase := .idle, tick := s.tick + 1,
                     out := { Outputs.none with ev := some ⟨.badEscape, w⟩ } }

/-- R144: in IDLE every logical byte is ignored. -/
def Obligations.IdleIgnoresLogicalBytes : Prop :=
  ∀ (s : State) (w v : Byte), decodeByte s.escPending w = (false, .byte v) → s.rxPhase = .idle →
    exec (.rxByte w) s = .next { s with escPending := false, out := Outputs.none, tick := s.tick + 1 }

/-- R145: the COMMAND byte is accepted below 5 and rejected from 5 on. -/
def Obligations.CommandByteIsCheckedAgainstTheCount : Prop :=
  ∀ (s : State) (w v : Byte), decodeByte s.escPending w = (false, .byte v) → s.rxPhase = .command →
    (v.toNat < 5 → exec (.rxByte w) s =
      .next { s with escPending := false, rxCmd := v, rxPhase := .len, out := Outputs.none, tick := s.tick + 1 }) ∧
    (5 ≤ v.toNat → exec (.rxByte w) s =
      .next { s with escPending := false, rxPhase := .idle, tick := s.tick + 1,
                     out := { Outputs.none with ev := some ⟨.unknownCmd, v⟩ } })

/-- R146: the LEN byte. 0 skips DATA, 255 is rejected. -/
def Obligations.LengthByteIsCheckedAgainstTheRange : Prop :=
  ∀ (s : State) (w v : Byte), decodeByte s.escPending w = (false, .byte v) → s.rxPhase = .len →
    (v.toNat ≤ 254 → exec (.rxByte w) s =
      .next { s with escPending := false, rxLen := v, rxCur := 0,
                     rxPhase := if v = 0 then .checksum else .data,
                     out := Outputs.none, tick := s.tick + 1 }) ∧
    (254 < v.toNat → exec (.rxByte w) s =
      .next { s with escPending := false, rxPhase := .idle, tick := s.tick + 1,
                     out := { Outputs.none with ev := some ⟨.badLen, v⟩ } })

/-- R147: a DATA byte is stored at `rx_cur`, and no other byte of the buffer changes. -/
def Obligations.DataByteIsStoredAtTheCursor : Prop :=
  ∀ (s : State) (w v : Byte), decodeByte s.escPending w = (false, .byte v) → s.rxPhase = .data →
    s.rxCur.toNat < 254 →
    ∃ t, exec (.rxByte w) s = .next t ∧
      t.rxBuf.read s.rxCur.toNat = some v ∧
      (∀ a, a ≠ s.rxCur.toNat → t.rxBuf.read a = s.rxBuf.read a) ∧
      t = { s with escPending := false, rxBuf := t.rxBuf, rxCur := s.rxCur + 1,
                   rxPhase := if s.rxCur + 1 = s.rxLen then .checksum else .data,
                   out := Outputs.none, tick := s.tick + 1 }

/-- R122, R124, R125, R148: the CHECKSUM byte is compared first, the size is checked next, the message is delivered last; every outcome
returns to IDLE. The size of CurrentIndication and RangeIndication is 3 (R6, R129, R130). -/
def Obligations.ChecksumByteDecidesTheFrame : Prop :=
  ∀ (s : State) (w v : Byte) (p : List Byte),
    decodeByte s.escPending w = (false, .byte v) → s.rxPhase = .checksum →
    s.rxLen.toNat ≤ 254 → p.length = s.rxLen.toNat → (∀ i, i < p.length → s.rxBuf.read i = p[i]?) →
    let c := (s.rxCmd :: s.rxLen :: p).foldl (fun x b => x ^^^ b) 0xFF#8
    let sized := expLen s.cmdCode s.rxCmd = .any ∨
      ∃ n, expLen s.cmdCode s.rxCmd = .exactly n ∧ n.val = s.rxLen.toNat
    (s.rxCmd = commandCode s.cmdCode .currentIndication ∨ s.rxCmd = commandCode s.cmdCode .rangeIndication →
      (sized ↔ s.rxLen = 3)) ∧
    (v ≠ c → exec (.rxByte w) s =
      .next { s with escPending := false, rxPhase := .idle, tick := s.tick + 1,
                     out := { Outputs.none with ev := some ⟨.badChecksum, v⟩ } }) ∧
    (v = c → ¬ sized → exec (.rxByte w) s =
      .next { s with escPending := false, rxPhase := .idle, tick := s.tick + 1,
                     out := { Outputs.none with ev := some ⟨.sizeMismatch, s.rxLen⟩ } }) ∧
    (v = c → sized → exec (.rxByte w) s =
      .next { s with escPending := false, rxPhase := .idle, tick := s.tick + 1,
                     out := { Outputs.none with msg := some ⟨s.rxCmd, s.rxLen, p⟩ } })

/-- R107 to R109: the classes that give a logical byte complete in every state R30 allows; each is the RX_BYTE transition of its
byte, clears the escape, and hands over the logical byte its rule names. -/
def Obligations.LogicalByteClassesComplete : Prop :=
  ∀ s : State, RxInv s →
    (s.escPending = false → ∀ w : Byte, w ≠ 0xC0#8 → w ≠ 0xDB#8 →
      ∃ t, exec (.decLit w) s = .next t ∧ exec (.rxByte w) s = .next t ∧ t.escPending = false ∧
        (s.rxPhase = .data → t.rxBuf.read s.rxCur.toNat = some w)) ∧
    (s.escPending = true →
      (∃ t, exec .decEscDelim s = .next t ∧ exec (.rxByte 0xDC#8) s = .next t ∧ t.escPending = false ∧
        (s.rxPhase = .data → t.rxBuf.read s.rxCur.toNat = some 0xC0#8)) ∧
      (∃ t, exec .decEscEsc s = .next t ∧ exec (.rxByte 0xDD#8) s = .next t ∧ t.escPending = false ∧
        (s.rxPhase = .data → t.rxBuf.read s.rxCur.toNat = some 0xDB#8)))

/-- R126 to R130, R145: in COMMAND each command row's byte is taken as the frame's command. R79: the byte is below 5 and different for
different rows, at every `CMD_CODE`, 0 to 4 in order at the default (log entry 13). R6: its expected length is 3 for CurrentIndication and
RangeIndication, and the OPEN parameter (log entry 4) for the other three. -/
def Obligations.CommandRowsStartTheirFrame : Prop :=
  (∀ s : State, s.rxPhase = .command → s.escPending = false →
    ∀ i n e, (i, n, e) ∈ [(Instr.speedRequest, Config.CommandName.speedRequest, Config.expLenSpeedRequest),
        (.speedIndication, .speedIndication, Config.expLenSpeedIndication),
        (.currentOverflowIndication, .currentOverflowIndication, Config.expLenCurrentOverflow),
        (.currentIndication, .currentIndication, .exactly 3), (.rangeIndication, .rangeIndication, .exactly 3)] →
      exec i s = .next { s with rxCmd := commandCode s.cmdCode n, rxPhase := .len, out := Outputs.none,
                                tick := s.tick + 1 } ∧
      expLen s.cmdCode (commandCode s.cmdCode n) = e ∧ (commandCode s.cmdCode n).toNat < 5) ∧
  (∀ c n n', commandCode c n = commandCode c n' → n = n') ∧
  commandNames.map (commandCode .listed) = [0#8, 1#8, 2#8, 3#8, 4#8]

/-- R131, R202: a reserved code in COMMAND, which comes escaped exactly when it is 0xC0 or 0xDB, is rejected with EV_UNKNOWN_CMD. -/
def Obligations.ReservedCommandIsRejected : Prop :=
  ∀ (s : State) (c : Byte), s.rxPhase = .command → 5 ≤ c.toNat →
    (s.escPending = true ↔ (c = 0xC0#8 ∨ c = 0xDB#8)) →
    exec (.cmdReserved c) s =
      .next { s with escPending := false, rxPhase := .idle, tick := s.tick + 1,
                     out := { Outputs.none with ev := some ⟨.unknownCmd, c⟩ } }

/-- R74, R75, R78: no class row and no command row is performed in a state, or on a byte, that does not select it (log entry 9). -/
def Obligations.UnselectedRowsAreRefused : Prop :=
  ∀ s : State,
    (∀ esc, esc ≠ s.escPending → exec (.decDelim esc) s = .refused .notSelected) ∧
    (s.escPending = true → exec .decEsc s = .refused .notSelected) ∧
    (s.escPending = false → exec .decEscDelim s = .refused .notSelected ∧ exec .decEscEsc s = .refused .notSelected) ∧
    (∀ w : Byte, s.escPending = true ∨ w = 0xC0#8 ∨ w = 0xDB#8 → exec (.decLit w) s = .refused .notSelected) ∧
    (∀ w : Byte, s.escPending = false ∨ w = 0xC0#8 ∨ w = 0xDC#8 ∨ w = 0xDD#8 →
      exec (.decEscBad w) s = .refused .notSelected) ∧
    (∀ b : Byte, b = 0xC0#8 ∨ b = 0xDB#8 → exec (.encLit b) s = .refused .notSelected) ∧
    (s.rxPhase ≠ .command ∨ s.escPending = true →
      ∀ i : Instr, i ∈ [Instr.speedRequest, .speedIndication, .currentOverflowIndication, .currentIndication,
        .rangeIndication] → exec i s = .refused .notSelected) ∧
    (∀ c : Byte, s.rxPhase ≠ .command ∨ c.toNat < 5 ∨ ¬ (s.escPending = true ↔ (c = 0xC0#8 ∨ c = 0xDB#8)) →
      exec (.cmdReserved c) s = .refused .notSelected)

/-- R74, R140: every RX_BYTE is the transition of the one class its key decodes to. -/
def Obligations.RxByteIsItsDecoderClass : Prop :=
  ∀ (s : State) (w : Byte), ∃ i,
    decodeKey s.cmdCode .dec9 (decKey s.escPending w) = .ok i ∧ exec (.rxByte w) s = exec i s

/-- R78, R145: in COMMAND, a wire byte that gives a logical byte is the transition of that command's row. -/
def Obligations.CommandPhaseByteIsItsCommandRow : Prop :=
  ∀ (s : State) (w v : Byte), s.rxPhase = .command → decodeByte s.escPending w = (false, .byte v) →
    ∃ i, decodeKey s.cmdCode .cmd8 v.toNat = .ok i ∧ exec (.rxByte w) s = exec i s

/-- R74, R140: whatever a class or command row does, some RX_BYTE does: the rows add no behaviour. -/
def Obligations.ReceiveRowsAreRxBytes : Prop :=
  ∀ (i : Instr) (s t : State), isReceiveRow i = true → exec i s = .next t →
    ∃ w, exec (.rxByte w) s = .next t

/-! ## Frames and whole-machine rules -/

/-- R51, R63, R145 to R147: the frame of every receive row (RX_BYTE, decoder classes, command rows). The transmit side never changes; each
receive register changes only in the phase whose rule writes it; no byte of `rx_buf` changes but the one at `rx_cur` in DATA. -/
def Obligations.ReceiveRowsFrame : Prop :=
  ∀ (i : Instr) (s t : State), isReceiveRow i = true → exec i s = .next t →
    t.txOut = s.txOut ∧ t.stimuli = s.stimuli ∧ t.cmdCode = s.cmdCode ∧ t.out.wire = none ∧ t.out.enc = none ∧
    (t.rxCmd ≠ s.rxCmd → s.rxPhase = .command) ∧
    (t.rxLen ≠ s.rxLen → s.rxPhase = .len) ∧
    (t.rxCur ≠ s.rxCur → s.rxPhase = .len ∨ s.rxPhase = .data) ∧
    (s.rxPhase ≠ .data → t.rxBuf = s.rxBuf) ∧
    (∀ a, a ≠ s.rxCur.toNat → t.rxBuf.read a = s.rxBuf.read a)

/-- R63, R112: the frame of the transmit operations and the encoder rows: nothing of the receive side changes, no message or event. -/
def Obligations.TransmitAndEncoderRowsFrame : Prop :=
  ∀ (i : Instr) (s t : State), isReceiveRow i = false → i ≠ .reset → exec i s = .next t →
    t.escPending = s.escPending ∧ t.rxPhase = s.rxPhase ∧ t.rxCmd = s.rxCmd ∧ t.rxLen = s.rxLen ∧
    t.rxCur = s.rxCur ∧ (∀ a, t.rxBuf.read a = s.rxBuf.read a) ∧ t.stimuli = s.stimuli ∧ t.cmdCode = s.cmdCode ∧
    t.out.msg = none ∧ t.out.ev = none ∧ (isTransmitRow i = false → t.txOut = s.txOut)

/-- R63: an RX_BYTE and a transmit operation give the same result in either order. -/
def Obligations.ReceiveAndTransmitCommute : Prop :=
  ∀ (s a b c d : State) (w : Byte) (i : Instr), isTransmitRow i = true →
    exec (.rxByte w) s = .next a → exec i a = .next b → exec i s = .next c → exec (.rxByte w) c = .next d →
    ({ b with out := a.out.merge b.out } : State) = { d with out := c.out.merge d.out }

/-- R207: an RX_BYTE puts out at most one message or event, never both. -/
def Obligations.AtMostOneOutputPerByte : Prop :=
  ∀ (s t : State) (w : Byte), exec (.rxByte w) s = .next t →
    (t.out.msg = none ∨ t.out.ev = none) ∧ (outputsOf t.out).length ≤ 1

/-- R175, R200, R230: only receive rows raise events or deliver messages. -/
def Obligations.OnlyReceiveRowsReport : Prop :=
  ∀ (i : Instr) (s t : State), exec i s = .next t → (t.out.ev ≠ none ∨ t.out.msg ≠ none) →
    isReceiveRow i = true

/-- R209: the entry of an error. The phase is IDLE, the escape is cleared, the event is reported, nothing is saved and nothing else
changes. -/
def Obligations.ErrorEntrySavesNothing : Prop :=
  ∀ (s t : State) (w : Byte) (e : Event), exec (.rxByte w) s = .next t → t.out.ev = some e →
    t = { s with escPending := false, rxPhase := .idle, tick := s.tick + 1,
                 out := { Outputs.none with ev := some e } }

/-- R210, R211: the reassembler leaves IDLE only at a frame start; in IDLE the only event is EV_BAD_ESCAPE, which leaves the phase IDLE. -/
def Obligations.IdleIsLeftOnlyByADelimiter : Prop :=
  ∀ (s t : State) (w : Byte), s.rxPhase = .idle → exec (.rxByte w) s = .next t →
    (t.rxPhase ≠ .idle → w = 0xC0#8 ∧ t.rxPhase = .command) ∧
    (∀ e, t.out.ev = some e → e = ⟨.badEscape, w⟩ ∧ t.rxPhase = .idle) ∧ t.out.msg = none

/-- R38, R148, R206: a message is delivered only by a CHECKSUM byte, it carries the held command and length, and the ports show it in that
transition, every payload byte through `msg_rd_data`. -/
def Obligations.DeliveredMessageIsReadAtThePorts : Prop :=
  ∀ (s t : State) (w : Byte) (m : Message), exec (.rxByte w) s = .next t → t.out.msg = some m →
    s.rxPhase = .checksum ∧ t.rxPhase = .idle ∧ m.cmd = s.rxCmd ∧ m.len = s.rxLen ∧
    m.payload.length = m.len.toNat ∧ msgValid t = true ∧ evValid t = false ∧ msgCmd t = m.cmd ∧ msgLen t = m.len ∧
    ∀ a : Byte, a.toNat < m.len.toNat → m.payload[a.toNat]? = some (msgRdData t a)

/-- R236: after a delivery `rx_cmd` outlasts one RX_BYTE, `rx_len` two and `rx_buf` three. -/
def Obligations.DeliveredMessageStaysForItsWindow : Prop :=
  ∀ (s t t1 t2 t3 : State) (w w1 w2 w3 : Byte) (m : Message),
    exec (.rxByte w) s = .next t → t.out.msg = some m →
    exec (.rxByte w1) t = .next t1 → exec (.rxByte w2) t1 = .next t2 → exec (.rxByte w3) t2 = .next t3 →
    t1.rxCmd = t.rxCmd ∧ t1.rxLen = t.rxLen ∧ t2.rxLen = t.rxLen ∧
    t1.rxBuf = t.rxBuf ∧ t2.rxBuf = t.rxBuf ∧ t3.rxBuf = t.rxBuf

/-- R37 to R40, R87, R200: the valid and ready lines; with an event, its code 1 to 5 and its info byte, so codes 0, 6 and 7 are never shown
as an event. Nothing is said of `ev_code` and `ev_info` without an event, which are then any value (log entry 11). -/
def Obligations.PortLinesFollowTheState : Prop :=
  ∀ s : State,
    (txReady s = true ↔ s.txOut = []) ∧ (wireValid s = true ↔ s.txOut ≠ []) ∧
    (∀ b rest, s.txOut = b :: rest → wireByte s = b) ∧
    (evValid s = true ↔ s.out.ev ≠ none) ∧ (msgValid s = true ↔ s.out.msg ≠ none) ∧
    (∀ info, s.out.ev = some ⟨.badEscape, info⟩ → evCode s = 1 ∧ evInfo s = info) ∧
    (∀ info, s.out.ev = some ⟨.unknownCmd, info⟩ → evCode s = 2 ∧ evInfo s = info) ∧
    (∀ info, s.out.ev = some ⟨.badLen, info⟩ → evCode s = 3 ∧ evInfo s = info) ∧
    (∀ info, s.out.ev = some ⟨.badChecksum, info⟩ → evCode s = 4 ∧ evInfo s = info) ∧
    (∀ info, s.out.ev = some ⟨.sizeMismatch, info⟩ → evCode s = 5 ∧ evInfo s = info) ∧
    (evValid s = true → evCode s ≠ 0 ∧ evCode s ≠ 6 ∧ evCode s ≠ 7)

/-! ## The transmit side -/

/-- R170: TX_FRAME pushes the DELIMITER and the escaped command, length, payload and checksum, and changes nothing else. -/
def Obligations.TxFramePushesTheWireFrame : Prop :=
  ∀ (s : State) (cmd len : Byte) (p : List Byte),
    s.txOut = [] → cmd.toNat < 5 → len.toNat ≤ 254 → p.length = len.toNat →
    let k := (cmd :: len :: p).foldl (fun x b => x ^^^ b) 0xFF#8
    exec (.txFrame cmd len p) s =
      .next { s with txOut := 0xC0#8 :: ([cmd, len] ++ p ++ [k]).flatMap encodeByte,
                     out := Outputs.none, tick := s.tick + 1 }

/-- R171: when TX_FRAME has no step. -/
def Obligations.TxFrameIsRefusedWhenBusyOrBad : Prop :=
  ∀ (s : State) (cmd len : Byte) (p : List Byte),
    (s.txOut ≠ [] → exec (.txFrame cmd len p) s = .refused .txBusy) ∧
    (s.txOut = [] → (5 ≤ cmd.toNat ∨ 254 < len.toNat) →
      exec (.txFrame cmd len p) s = .refused .txBadRequest)

/-- R172: TX_POP takes the head of `tx_out`, which `wire_byte` showed; with `tx_out` empty there is none. -/
def Obligations.TxPopTakesTheHead : Prop :=
  ∀ s : State,
    (∀ b rest, s.txOut = b :: rest → wireByte s = b ∧
      exec .txPop s = .next { s with txOut := rest, tick := s.tick + 1,
                                     out := { Outputs.none with wire := some b } }) ∧
    (s.txOut = [] → exec .txPop s = .refused .noWireByte)

/-- R62, R172, R173: popping until empty puts out the bytes of `tx_out` in order, and only then is `tx_ready` 1 again. -/
def Obligations.PoppingAllSendsTheQueueInOrder : Prop :=
  ∀ (s : State) (n : Nat), n ≤ s.txOut.length →
    ∃ t, runOps (List.replicate n .txPop) s = .next (t, (s.txOut.take n).map Output.wire) ∧
      t.txOut = s.txOut.drop n ∧ (txReady t = true ↔ n = s.txOut.length) ∧
      t.rxPhase = s.rxPhase ∧ t.escPending = s.escPending ∧ t.rxCmd = s.rxCmd ∧ t.rxLen = s.rxLen ∧
      t.rxCur = s.rxCur ∧ t.rxBuf = s.rxBuf

/-! ## Headline results -/

/-- R174: TX_FRAME from an empty `tx_out` is accepted, and its wire bytes, fed to RX_BYTE from any receive state, deliver exactly
that message, in the transition of the last byte, and raise no event. -/
def Obligations.TransmittedFrameIsReceived : Prop :=
  ∀ (u s : State) (cmd len : Byte) (p : List Byte),
    u.txOut = [] → cmd.toNat < 5 → len.toNat ≤ 254 → p.length = len.toNat →
    (expLen s.cmdCode cmd = .any ∨ ∃ n, expLen s.cmdCode cmd = .exactly n ∧ n.val = len.toNat) →
    ∃ u' t, exec (.txFrame cmd len p) u = .next u' ∧
      runBytes u'.txOut s = .next (t, [.msg ⟨cmd, len, p⟩]) ∧
      t.out.msg = some ⟨cmd, len, p⟩ ∧ t.rxPhase = .idle ∧ t.escPending = false

/-- R124, R148, V-P2: the same frame with a length its command does not have gives EV_SIZE_MISMATCH and no message. -/
def Obligations.WrongSizedFrameIsDropped : Prop :=
  ∀ (u s : State) (cmd len : Byte) (p : List Byte) (n : Fin 255),
    u.txOut = [] → cmd.toNat < 5 → len.toNat ≤ 254 → p.length = len.toNat →
    expLen s.cmdCode cmd = .exactly n → n.val ≠ len.toNat →
    ∃ u' t, exec (.txFrame cmd len p) u = .next u' ∧
      runBytes u'.txOut s = .next (t, [.event ⟨.sizeMismatch, len⟩]) ∧ t.rxPhase = .idle

/-- R150: after any garbage, one well-formed frame delivers exactly its message, and after the garbage's outputs nothing else. -/
def Obligations.GarbageThenAFrameDeliversTheFrame : Prop :=
  ∀ (s : State) (garbage : List Byte) (cmd len : Byte) (p : List Byte), RxInv s →
    cmd.toNat < 5 → len.toNat ≤ 254 → p.length = len.toNat →
    (expLen s.cmdCode cmd = .any ∨ ∃ n, expLen s.cmdCode cmd = .exactly n ∧ n.val = len.toNat) →
    ∃ g gs t, runBytes garbage s = .next (g, gs) ∧
      runBytes (garbage ++ wireFrame cmd len p) s = .next (t, gs ++ [.msg ⟨cmd, len, p⟩]) ∧
      (messagesOf gs = [] → messagesOf (gs ++ [.msg ⟨cmd, len, p⟩]) = [⟨cmd, len, p⟩])

/-- R29, R151, R241: only the sequence of wire bytes matters. Steps that present the bytes with idle steps before, between and after them, as
many as the host likes, give the outputs of the bytes one after another, and the same state but for the strobes of the last step and the
model's `tick`. -/
def Obligations.GapsBetweenBytesDoNotMatter : Prop :=
  ∀ (s : State) (ps : List PortInputs) (n : Nat), RxInv s → (∀ p ∈ ps, receivesOnly p = true) →
    ∃ t u os, runBytes (presentedBytes ps) s = .next (t, os) ∧
      runSteps (ps.length + n) { s with stimuli := ps.map Stimulus.ports } = .next (u, os) ∧
      u = { t with stimuli := [], out := u.out, tick := u.tick }

/-- R30, R50 and R28: the invariants hold at reset, at every `CMD_CODE`. -/
def Obligations.InvariantsHoldAtReset : Prop :=
  ∀ c : Config.CmdCode, RxInv (State.resetWith c) ∧ BufInv (State.resetWith c) ∧ TxInv (State.resetWith c)

/-- R30: every step keeps the receive-side invariant. -/
def Obligations.EveryStepKeepsTheReceiveInvariant : Prop :=
  ∀ s t : State, RxInv s → step s = .next t → RxInv t

/-- R50, R58: every step keeps the payload buffer in its canonical form, its indices in 0..253. -/
def Obligations.EveryStepKeepsTheBufferCanonical : Prop :=
  ∀ s t : State, BufInv s → step s = .next t → BufInv t

/-- R28: every step keeps `tx_out` a tail of one frame, hence of at most 512 bytes. -/
def Obligations.EveryStepKeepsAtMostOneFrameQueued : Prop :=
  ∀ s t : State, TxInv s → step s = .next t → TxInv t ∧ t.txOut.length ≤ 512

/-- R30, R36, R59, R212: where the receive invariant holds, no wire byte stops the block. -/
def Obligations.NoWireByteStopsTheBlock : Prop :=
  ∀ (s : State) (w : Byte), RxInv s → GoesOn (exec (.rxByte w) s)

/-- R59, R90, R212: where the receive invariant holds, a step on any port inputs in the port's form goes on. -/
def Obligations.NoPortInputsStopTheBlock : Prop :=
  ∀ (s : State) (p : PortInputs) (rest : List Stimulus), RxInv s → s.stimuli = .ports p :: rest →
    DrivesPayload p → GoesOn (step s)
end

