-- ==== Sys2Proof/Laws/Codec.lean ====
section
/-! SUPPORT. What the codec's two functions can answer (R100, R104). -/

namespace Sys2Proof.Machine

/-- Everything `decode_byte` can answer, with the condition of each answer (R105 to R110). -/
theorem decodeByte_cases (esc : Bool) (w : Byte) :
    (w = Config.delimiter ∧ decodeByte esc w = (false, .sof)) ∨
    (esc = false ∧ w = Config.escape ∧ decodeByte esc w = (true, .none)) ∨
    (esc = false ∧ w ≠ Config.delimiter ∧ w ≠ Config.escape ∧ decodeByte esc w = (false, .byte w)) ∨
    (esc = true ∧ w = Config.escapeDelim ∧ decodeByte esc w = (false, .byte Config.delimiter)) ∨
    (esc = true ∧ w = Config.escapeEscape ∧ decodeByte esc w = (false, .byte Config.escape)) ∨
    (esc = true ∧ w ≠ Config.delimiter ∧ w ≠ Config.escapeDelim ∧ w ≠ Config.escapeEscape ∧
      decodeByte esc w = (false, .badEsc w)) := by
  unfold decodeByte
  by_cases h1 : w = Config.delimiter
  · simp [h1]
  · cases esc
    · by_cases h2 : w = Config.escape
      · simp [h2, Config.delimiter, Config.escape]
      · simp [h1, h2]
    · by_cases h3 : w = Config.escapeDelim
      · simp [h3, Config.delimiter, Config.escapeDelim]
      · by_cases h4 : w = Config.escapeEscape
        · simp [h4, Config.delimiter, Config.escapeDelim, Config.escapeEscape]
        · simp [h1, h3, h4]

theorem decodeByte_delimiter (esc : Bool) : decodeByte esc Config.delimiter = (false, .sof) := by
  simp [decodeByte]

theorem decodeByte_escape : decodeByte false Config.escape = (true, .none) := by decide

theorem decodeByte_escapeDelim : decodeByte true Config.escapeDelim = (false, .byte Config.delimiter) := by decide

theorem decodeByte_escapeEscape : decodeByte true Config.escapeEscape = (false, .byte Config.escape) := by decide

theorem decodeByte_literal (w : Byte) (h1 : w ≠ Config.delimiter) (h2 : w ≠ Config.escape) :
    decodeByte false w = (false, .byte w) := by simp [decodeByte, h1, h2]

/-- Everything `encode_byte` can answer (R101 to R103). -/
theorem encodeByte_cases (b : Byte) :
    (b = Config.delimiter ∧ encodeByte b = [Config.escape, Config.escapeDelim]) ∨
    (b = Config.escape ∧ encodeByte b = [Config.escape, Config.escapeEscape]) ∨
    (b ≠ Config.delimiter ∧ b ≠ Config.escape ∧ encodeByte b = [b]) := by
  unfold encodeByte
  by_cases h1 : b = Config.delimiter
  · exact .inl ⟨h1, by simp [h1]⟩
  · by_cases h2 : b = Config.escape
    · exact .inr (.inl ⟨h2, by simp [h2, Config.escape, Config.delimiter]⟩)
    · exact .inr (.inr ⟨h1, h2, by simp [h1, h2]⟩)

@[simp] theorem encodeBytes_nil : encodeBytes [] = [] := rfl

@[simp] theorem encodeBytes_cons (b : Byte) (bs : List Byte) :
    encodeBytes (b :: bs) = encodeByte b ++ encodeBytes bs := by simp [encodeBytes]

@[simp] theorem encodeBytes_append (xs ys : List Byte) :
    encodeBytes (xs ++ ys) = encodeBytes xs ++ encodeBytes ys := by simp [encodeBytes]

end Sys2Proof.Machine
end

