-- ==== Sys2Proof/Laws/Commands.lean ====
section
/-! SUPPORT. What a pairing of command names and codes guarantees (R79), and what it makes of EXP_LEN (R6). -/

namespace Sys2Proof.Machine

theorem commandCode_toNat_lt (c : Config.CmdCode) (n : Config.CommandName) : (commandCode c n).toNat < Config.nCmd := by
  cases n <;> simp only [commandCode, BitVec.toNat_ofNat, Config.nCmd] <;> omega

/-- No command code needs escaping (R73). -/
theorem mustEscape_commandCode (c : Config.CmdCode) (n : Config.CommandName) : mustEscape (commandCode c n) = false := by
  have h : ∀ b : Byte, b.toNat < Config.nCmd → mustEscape b = false := by decide
  exact h _ (commandCode_toNat_lt c n)

/-- A code names exactly the command kind that has it. -/
theorem commandNamed_eq_some (c : Config.CmdCode) (code : Byte) (n : Config.CommandName) :
    commandNamed c code = some n ↔ commandCode c n = code := by
  obtain ⟨a0, a1, a2, a3, a4, h⟩ := c
  have eqv : ∀ i j : Fin 5, (BitVec.ofNat 8 i.val == BitVec.ofNat 8 j.val) = decide (i = j) := by decide
  simp only [List.nodup_cons, List.mem_cons, List.not_mem_nil, not_or, or_false] at h
  constructor
  · intro hn
    simpa using List.find?_some hn
  · rintro rfl
    cases n <;> simp [commandNamed, commandNames, commandCode, List.find?, eqv, h]

theorem expLen_commandCode (c : Config.CmdCode) (n : Config.CommandName) :
    expLen c (commandCode c n) = expLenOf n := by
  rw [expLen, (commandNamed_eq_some c _ n).mpr rfl]

end Sys2Proof.Machine
end

