-- ==== Sys2Proof/Laws/Memory.lean ====
section
/-! SUPPORT. The laws of the payload buffer: read after write, and the canonical form kept. -/

namespace Sys2Proof.Machine

/-- Reading the byte just written gives it, whatever the buffer held. -/
@[simp] theorem read_write_same (m : Memory) (i : Nat) (v : Byte) : (m.write i v).read i = some v := by
  induction m with
  | nil => simp [Memory.write, Memory.read]
  | cons c m ih =>
    obtain ⟨k, b⟩ := c
    simp only [Memory.write]
    split
    · next h => simp [Memory.read, ih, Nat.ne_of_lt h]
    · split <;> simp [Memory.read]

/-- Writing one byte leaves every other byte alone, whatever the buffer held. -/
theorem read_write_other (m : Memory) {i j : Nat} (v : Byte) (h : j ≠ i) :
    (m.write i v).read j = m.read j := by
  induction m with
  | nil => simp [Memory.write, Memory.read, Ne.symm h]
  | cons c m ih =>
    obtain ⟨k, b⟩ := c
    simp only [Memory.write]
    split
    · simp [Memory.read, ih]
    · split
      · next hk => subst hk; simp [Memory.read, Ne.symm h]
      · simp [Memory.read, Ne.symm h]

/-- A read after a write, by cases on the index. -/
theorem read_write (m : Memory) (i j : Nat) (v : Byte) :
    (m.write i v).read j = if j = i then some v else m.read j := by
  by_cases h : j = i
  · simp [h]
  · simp [h, read_write_other m v h]

theorem wfFrom_write (m : Memory) (lo i : Nat) (v : Byte) (hm : m.wfFrom lo = true) (hlo : lo ≤ i)
    (hi : i < Config.maxLen) : (m.write i v).wfFrom lo = true := by
  induction m generalizing lo with
  | nil => simp [Memory.write, Memory.wfFrom, hlo, hi]
  | cons c m ih =>
    obtain ⟨k, b⟩ := c
    simp only [Memory.wfFrom, Bool.and_eq_true, decide_eq_true_eq] at hm
    obtain ⟨⟨hlk, hk⟩, hm⟩ := hm
    simp only [Memory.write]
    split
    · next h => simp [Memory.wfFrom, hlk, hk, ih (k + 1) hm h]
    · split
      · next h => subst h; simp [Memory.wfFrom, hlk, hk, hm]
      · next h1 h2 =>
        have : i + 1 ≤ k := by omega
        simp [Memory.wfFrom, hlo, hi, this, hk, hm]

/-- A write inside the buffer keeps its canonical form. -/
theorem wf_write (m : Memory) (i : Nat) (v : Byte) (hm : m.wf = true) (hi : i < Config.maxLen) :
    (m.write i v).wf = true := wfFrom_write m 0 i v hm (Nat.zero_le i) hi

/-- The empty buffer is in canonical form. -/
@[simp] theorem wf_nil : Memory.wf [] = true := rfl

/-- The buffer of the reset state is in canonical form. -/
theorem reset_rxBuf_wf : State.reset.rxBuf.wf = true := rfl

/-- Reading a run of bytes answers `p` exactly when the buffer holds `p` there, inside 0..253. -/
theorem bufReadFrom_ok_iff (m : Memory) (i n : Nat) (p : List Byte) :
    bufReadFrom m i n = .ok p ↔
      p.length = n ∧ ∀ j, j < n → i + j < Config.maxLen ∧ m.read (i + j) = p[j]? := by
  induction n generalizing i p with
  | zero =>
    simp only [bufReadFrom, Except.ok.injEq]
    constructor
    · rintro rfl; simp
    · rintro ⟨h, -⟩; exact (List.length_eq_zero_iff.mp h).symm
  | succ n ih =>
    simp only [bufReadFrom, bufRead]
    constructor
    · intro h
      split at h
      · cases h
      · next b hb =>
        split at hb
        · cases hb
        · next hlt =>
          split at hb
          · next b' hr =>
            cases hb
            split at h
            · cases h
            · next bs hbs =>
              cases h
              obtain ⟨hl, hall⟩ := (ih (i + 1) bs).mp hbs
              refine ⟨by simp [hl], fun j hj => ?_⟩
              cases j with
              | zero => exact ⟨by omega, by simpa using hr⟩
              | succ j =>
                have := hall j (by omega)
                rw [show i + (j + 1) = i + 1 + j by omega]
                simpa using this
          · cases hb
    · rintro ⟨hl, hall⟩
      obtain _ | ⟨b, bs⟩ := p
      · simp at hl
      · have h0 := hall 0 (by omega)
        simp only [Nat.add_zero, List.getElem?_cons_zero] at h0
        have hbs : bufReadFrom m (i + 1) n = .ok bs := by
          refine (ih (i + 1) bs).mpr ⟨by simpa using hl, fun j hj => ?_⟩
          have := hall (j + 1) (by omega)
          rw [show i + (j + 1) = i + 1 + j by omega] at this
          simpa using this
        simp [h0.2, Nat.not_le.mpr h0.1, hbs]

/-- A buffer that holds a value at each of the first `n` indices, inside 0..253, can be read. -/
theorem bufReadFrom_ok_of_isSome (m : Memory) (i n : Nat) (hn : i + n ≤ Config.maxLen)
    (h : ∀ j, j < n → (m.read (i + j)).isSome = true) : ∃ p, bufReadFrom m i n = .ok p := by
  induction n generalizing i with
  | zero => exact ⟨[], rfl⟩
  | succ n ih =>
    obtain ⟨p, hp⟩ := ih (i + 1) (by omega) (fun j hj => by
      have := h (j + 1) (by omega)
      rwa [show i + (j + 1) = i + 1 + j by omega] at this)
    obtain ⟨b, hb⟩ := Option.isSome_iff_exists.mp (h 0 (by omega))
    simp only [Nat.add_zero] at hb
    refine ⟨b :: p, ?_⟩
    simp [bufReadFrom, bufRead, hb, hp, show ¬ Config.maxLen ≤ i by omega]

end Sys2Proof.Machine
end

