-- ==== Sys2Proof/Laws/PerInstr.lean ====
section
/-! SUPPORT. A law of every row as syntax: what a well-formed row is encoded to has the width of its format. -/

namespace Sys2Proof.Laws.KeyFits

/-- The encoding's key, if it is a key, has no bit above its format's width. -/
def Statement (i : Instr) : Prop :=
  i.wellFormed = true → ∀ c f k, encode c i = .key f k → k < 2 ^ f.width

theorem decKey_lt (esc : Bool) (w : Byte) : decKey esc w < 512 := by
  have := w.isLt
  cases esc <;> simp [decKey] <;> omega

theorem rxByte (w : Byte) : Statement (.rxByte w) := by intro _ q f k h; cases h
theorem txFrame (c n : Byte) (p : List Byte) : Statement (.txFrame c n p) := by intro _ q f k h; cases h
theorem txPop : Statement .txPop := by intro _ q f k h; cases h
theorem reset : Statement .reset := by intro _ q f k h; cases h
theorem decDelim (esc : Bool) : Statement (.decDelim esc) := by intro _ q f k h; cases h; exact decKey_lt _ _
theorem decEsc : Statement .decEsc := by intro _ q f k h; cases h; exact decKey_lt _ _
theorem decEscDelim : Statement .decEscDelim := by intro _ q f k h; cases h; exact decKey_lt _ _
theorem decEscEsc : Statement .decEscEsc := by intro _ q f k h; cases h; exact decKey_lt _ _
theorem decLit (w : Byte) : Statement (.decLit w) := by intro _ q f k h; cases h; exact decKey_lt _ _
theorem decEscBad (w : Byte) : Statement (.decEscBad w) := by intro _ q f k h; cases h; exact decKey_lt _ _
theorem encDelim : Statement .encDelim := by intro _ q f k h; cases h; exact BitVec.isLt _
theorem encEsc : Statement .encEsc := by intro _ q f k h; cases h; exact BitVec.isLt _
theorem encLit (b : Byte) : Statement (.encLit b) := by intro _ q f k h; cases h; exact BitVec.isLt _
theorem speedRequest : Statement .speedRequest := by intro _ q f k h; cases h; exact BitVec.isLt _
theorem speedIndication : Statement .speedIndication := by intro _ q f k h; cases h; exact BitVec.isLt _
theorem currentOverflowIndication : Statement .currentOverflowIndication := by
  intro _ q f k h; cases h; exact BitVec.isLt _
theorem currentIndication : Statement .currentIndication := by intro _ q f k h; cases h; exact BitVec.isLt _
theorem rangeIndication : Statement .rangeIndication := by intro _ q f k h; cases h; exact BitVec.isLt _
theorem cmdReserved (c : Byte) : Statement (.cmdReserved c) := by intro _ q f k h; cases h; exact BitVec.isLt _

end Sys2Proof.Laws.KeyFits
end

