-- ==== Sys2Proof/Laws/State.lean ====
section
/-! SUPPORT. One lemma per field for each named update of the state. -/

namespace Sys2Proof.Machine

variable (s : State) (c : EventCode) (info cmd len : Byte) (p xs : List Byte)

@[simp] theorem begin_escPending : s.begin.escPending = s.escPending := rfl
@[simp] theorem begin_rxPhase : s.begin.rxPhase = s.rxPhase := rfl
@[simp] theorem begin_rxCmd : s.begin.rxCmd = s.rxCmd := rfl
@[simp] theorem begin_rxLen : s.begin.rxLen = s.rxLen := rfl
@[simp] theorem begin_rxCur : s.begin.rxCur = s.rxCur := rfl
@[simp] theorem begin_rxBuf : s.begin.rxBuf = s.rxBuf := rfl
@[simp] theorem begin_txOut : s.begin.txOut = s.txOut := rfl
@[simp] theorem begin_cmdCode : s.begin.cmdCode = s.cmdCode := rfl
@[simp] theorem begin_out : s.begin.out = Outputs.none := rfl
@[simp] theorem begin_stimuli : s.begin.stimuli = s.stimuli := rfl
@[simp] theorem begin_tick : s.begin.tick = s.tick + 1 := rfl

@[simp] theorem raise_escPending : (s.raise c info).escPending = s.escPending := rfl
@[simp] theorem raise_rxPhase : (s.raise c info).rxPhase = .idle := rfl
@[simp] theorem raise_rxCmd : (s.raise c info).rxCmd = s.rxCmd := rfl
@[simp] theorem raise_rxLen : (s.raise c info).rxLen = s.rxLen := rfl
@[simp] theorem raise_rxCur : (s.raise c info).rxCur = s.rxCur := rfl
@[simp] theorem raise_rxBuf : (s.raise c info).rxBuf = s.rxBuf := rfl
@[simp] theorem raise_txOut : (s.raise c info).txOut = s.txOut := rfl
@[simp] theorem raise_cmdCode : (s.raise c info).cmdCode = s.cmdCode := rfl
@[simp] theorem raise_out : (s.raise c info).out = { s.out with ev := some ⟨c, info⟩ } := rfl
@[simp] theorem raise_stimuli : (s.raise c info).stimuli = s.stimuli := rfl
@[simp] theorem raise_tick : (s.raise c info).tick = s.tick := rfl

@[simp] theorem emitMsg_escPending : (s.emitMsg cmd len p).escPending = s.escPending := rfl
@[simp] theorem emitMsg_rxPhase : (s.emitMsg cmd len p).rxPhase = s.rxPhase := rfl
@[simp] theorem emitMsg_rxCmd : (s.emitMsg cmd len p).rxCmd = s.rxCmd := rfl
@[simp] theorem emitMsg_rxLen : (s.emitMsg cmd len p).rxLen = s.rxLen := rfl
@[simp] theorem emitMsg_rxCur : (s.emitMsg cmd len p).rxCur = s.rxCur := rfl
@[simp] theorem emitMsg_rxBuf : (s.emitMsg cmd len p).rxBuf = s.rxBuf := rfl
@[simp] theorem emitMsg_txOut : (s.emitMsg cmd len p).txOut = s.txOut := rfl
@[simp] theorem emitMsg_cmdCode : (s.emitMsg cmd len p).cmdCode = s.cmdCode := rfl
@[simp] theorem emitMsg_out : (s.emitMsg cmd len p).out = { s.out with msg := some ⟨cmd, len, p⟩ } := rfl
@[simp] theorem emitMsg_stimuli : (s.emitMsg cmd len p).stimuli = s.stimuli := rfl
@[simp] theorem emitMsg_tick : (s.emitMsg cmd len p).tick = s.tick := rfl

@[simp] theorem pushWire_escPending : (s.pushWire xs).escPending = s.escPending := rfl
@[simp] theorem pushWire_rxPhase : (s.pushWire xs).rxPhase = s.rxPhase := rfl
@[simp] theorem pushWire_rxCmd : (s.pushWire xs).rxCmd = s.rxCmd := rfl
@[simp] theorem pushWire_rxLen : (s.pushWire xs).rxLen = s.rxLen := rfl
@[simp] theorem pushWire_rxCur : (s.pushWire xs).rxCur = s.rxCur := rfl
@[simp] theorem pushWire_rxBuf : (s.pushWire xs).rxBuf = s.rxBuf := rfl
@[simp] theorem pushWire_txOut : (s.pushWire xs).txOut = s.txOut ++ xs := rfl
@[simp] theorem pushWire_cmdCode : (s.pushWire xs).cmdCode = s.cmdCode := rfl
@[simp] theorem pushWire_out : (s.pushWire xs).out = s.out := rfl
@[simp] theorem pushWire_stimuli : (s.pushWire xs).stimuli = s.stimuli := rfl
@[simp] theorem pushWire_tick : (s.pushWire xs).tick = s.tick := rfl

@[simp] theorem encoderAnswers_escPending : (encoderAnswers xs s).escPending = s.escPending := rfl
@[simp] theorem encoderAnswers_rxPhase : (encoderAnswers xs s).rxPhase = s.rxPhase := rfl
@[simp] theorem encoderAnswers_rxCmd : (encoderAnswers xs s).rxCmd = s.rxCmd := rfl
@[simp] theorem encoderAnswers_rxLen : (encoderAnswers xs s).rxLen = s.rxLen := rfl
@[simp] theorem encoderAnswers_rxCur : (encoderAnswers xs s).rxCur = s.rxCur := rfl
@[simp] theorem encoderAnswers_rxBuf : (encoderAnswers xs s).rxBuf = s.rxBuf := rfl
@[simp] theorem encoderAnswers_txOut : (encoderAnswers xs s).txOut = s.txOut := rfl
@[simp] theorem encoderAnswers_cmdCode : (encoderAnswers xs s).cmdCode = s.cmdCode := rfl
@[simp] theorem encoderAnswers_out : (encoderAnswers xs s).out = { Outputs.none with enc := some xs } := rfl
@[simp] theorem encoderAnswers_stimuli : (encoderAnswers xs s).stimuli = s.stimuli := rfl
@[simp] theorem encoderAnswers_tick : (encoderAnswers xs s).tick = s.tick + 1 := rfl

end Sys2Proof.Machine
end

