-- ==== Sys2Proof/Laws/Receive.lean ====
section
/-! SUPPORT. Once for the whole receive side: everything a receive transition can do. -/

namespace Sys2Proof.Machine

/-- The state a receive transition starts from once the decoder has written `esc_pending`. -/
def received (esc : Bool) (s : State) : State := { s.begin with escPending := esc }

section
variable (esc : Bool) (s : State)

@[simp] theorem received_escPending : (received esc s).escPending = esc := rfl
@[simp] theorem received_rxPhase : (received esc s).rxPhase = s.rxPhase := rfl
@[simp] theorem received_rxCmd : (received esc s).rxCmd = s.rxCmd := rfl
@[simp] theorem received_rxLen : (received esc s).rxLen = s.rxLen := rfl
@[simp] theorem received_rxCur : (received esc s).rxCur = s.rxCur := rfl
@[simp] theorem received_rxBuf : (received esc s).rxBuf = s.rxBuf := rfl
@[simp] theorem received_txOut : (received esc s).txOut = s.txOut := rfl
@[simp] theorem received_cmdCode : (received esc s).cmdCode = s.cmdCode := rfl
@[simp] theorem received_out : (received esc s).out = Outputs.none := rfl
@[simp] theorem received_stimuli : (received esc s).stimuli = s.stimuli := rfl
@[simp] theorem received_tick : (received esc s).tick = s.tick + 1 := rfl

end

theorem receive_eq (d : Bool × DecResult) (s : State) : receive d s = reassemble d.2 (received d.1 s) := rfl

/-! ## Forward: what each rule answers -/

theorem receive_sof (esc : Bool) (s : State) :
    receive (esc, .sof) s = .next { received esc s with rxPhase := .command } := rfl

theorem receive_none (esc : Bool) (s : State) : receive (esc, .none) s = .next (received esc s) := rfl

theorem receive_badEsc (esc : Bool) (w : Byte) (s : State) :
    receive (esc, .badEsc w) s = .next ((received esc s).raise .badEscape w) := rfl

theorem receive_byte_idle (esc : Bool) (v : Byte) {s : State} (h : s.rxPhase = .idle) :
    receive (esc, .byte v) s = .next (received esc s) := by
  simp [receive_eq, reassemble, onByte, h]

theorem receive_byte_command (esc : Bool) (v : Byte) {s : State} (h : s.rxPhase = .command) :
    receive (esc, .byte v) s = .next (onCommand v (received esc s)) := by
  simp [receive_eq, reassemble, onByte, h]

theorem receive_byte_len (esc : Bool) (v : Byte) {s : State} (h : s.rxPhase = .len) :
    receive (esc, .byte v) s = .next (onLen v (received esc s)) := by
  simp [receive_eq, reassemble, onByte, h]

theorem receive_byte_data (esc : Bool) (v : Byte) {s : State} (h : s.rxPhase = .data)
    (hc : s.rxCur.toNat < Config.maxLen) :
    receive (esc, .byte v) s =
      .next { s with escPending := esc, out := Outputs.none, tick := s.tick + 1,
                     rxBuf := s.rxBuf.write s.rxCur.toNat v, rxCur := s.rxCur + 1,
                     rxPhase := if s.rxCur + 1 = s.rxLen then .checksum else .data } := by
  have hc' : (received esc s).rxCur.toNat < Config.maxLen := hc
  simp only [receive_eq, reassemble, onByte, received_rxPhase, h, onData]
  rw [if_pos hc']
  rfl

theorem receive_byte_checksum (esc : Bool) (v : Byte) {s : State} {p : List Byte} (h : s.rxPhase = .checksum)
    (hr : bufReadFrom s.rxBuf 0 s.rxLen.toNat = .ok p) :
    receive (esc, .byte v) s = .next (onVerdict v p (received esc s)) := by
  simp [receive_eq, reassemble, onByte, h, onChecksum, hr]

/-! ## Backward: everything a receive transition can do -/

/-- Every way in which a receive transition reaches a next state, one per rule R141 to R148. -/
theorem receive_cases {esc : Bool} {r : DecResult} {s t : State} (h : receive (esc, r) s = .next t) :
    (r = .sof ∧
      t = { s with escPending := esc, out := Outputs.none, tick := s.tick + 1, rxPhase := .command }) ∨
    (r = .none ∧ t = received esc s) ∨
    (∃ w, r = .badEsc w ∧ t = (received esc s).raise .badEscape w) ∨
    ∃ v, r = .byte v ∧
      ((s.rxPhase = .idle ∧ t = received esc s) ∨
       (s.rxPhase = .command ∧ v.toNat < Config.nCmd ∧
          t = { s with escPending := esc, out := Outputs.none, tick := s.tick + 1, rxCmd := v, rxPhase := .len }) ∨
       (s.rxPhase = .command ∧ Config.nCmd ≤ v.toNat ∧ t = (received esc s).raise .unknownCmd v) ∨
       (s.rxPhase = .len ∧ v.toNat ≤ Config.maxLen ∧
          t = { s with escPending := esc, out := Outputs.none, tick := s.tick + 1, rxLen := v, rxCur := 0,
                       rxPhase := if v = 0 then .checksum else .data }) ∨
       (s.rxPhase = .len ∧ Config.maxLen < v.toNat ∧ t = (received esc s).raise .badLen v) ∨
       (s.rxPhase = .data ∧ s.rxCur.toNat < Config.maxLen ∧
          t = { s with escPending := esc, out := Outputs.none, tick := s.tick + 1,
                       rxBuf := s.rxBuf.write s.rxCur.toNat v, rxCur := s.rxCur + 1,
                       rxPhase := if s.rxCur + 1 = s.rxLen then .checksum else .data }) ∨
       (s.rxPhase = .checksum ∧ ∃ p, bufReadFrom s.rxBuf 0 s.rxLen.toNat = .ok p ∧
          t = onVerdict v p (received esc s))) := by
  rw [receive_eq] at h
  cases r with
  | sof => cases h; exact .inl ⟨rfl, rfl⟩
  | none => cases h; exact .inr (.inl ⟨rfl, rfl⟩)
  | badEsc w => cases h; exact .inr (.inr (.inl ⟨w, rfl, rfl⟩))
  | byte v =>
    refine .inr (.inr (.inr ⟨v, rfl, ?_⟩))
    simp only [reassemble, onByte, received_rxPhase] at h
    cases hp : s.rxPhase with
    | idle => simp only [hp] at h; cases h; simp
    | command =>
      simp only [hp, onCommand, isKnownCommand, decide_eq_true_eq] at h
      split at h
      · next hk => cases h; exact .inr (.inl ⟨rfl, hk, rfl⟩)
      · next hk => cases h; exact .inr (.inr (.inl ⟨rfl, Nat.not_lt.mp hk, rfl⟩))
    | len =>
      simp only [hp, onLen, isLegalLength, decide_eq_true_eq] at h
      split at h
      · next hk => cases h; exact .inr (.inr (.inr (.inl ⟨rfl, hk, rfl⟩)))
      · next hk => cases h; exact .inr (.inr (.inr (.inr (.inl ⟨rfl, Nat.not_le.mp hk, rfl⟩))))
    | data =>
      simp only [hp, onData] at h
      by_cases hk : (received esc s).rxCur.toNat < Config.maxLen
      · rw [if_pos hk] at h
        cases h
        exact .inr (.inr (.inr (.inr (.inr (.inl ⟨rfl, hk, rfl⟩)))))
      · rw [if_neg hk] at h
        cases h
    | checksum =>
      simp only [hp, onChecksum, received_rxBuf, received_rxLen] at h
      split at h
      · cases h
      · next p hr => cases h; exact .inr (.inr (.inr (.inr (.inr (.inr ⟨rfl, p, hr, rfl⟩)))))

/-- The three verdicts on a checksum byte (R125, R148). -/
theorem onVerdict_cases (v : Byte) (p : List Byte) (s : State) :
    (v ≠ checksum s.rxCmd s.rxLen p ∧ onVerdict v p s = s.raise .badChecksum v) ∨
    (v = checksum s.rxCmd s.rxLen p ∧ sizeOk s.cmdCode s.rxCmd s.rxLen = false ∧
      onVerdict v p s = s.raise .sizeMismatch s.rxLen) ∨
    (v = checksum s.rxCmd s.rxLen p ∧ sizeOk s.cmdCode s.rxCmd s.rxLen = true ∧
      onVerdict v p s = ({ s with rxPhase := .idle } : State).emitMsg s.rxCmd s.rxLen p) := by
  unfold onVerdict
  by_cases h1 : v = checksum s.rxCmd s.rxLen p
  · cases h2 : sizeOk s.cmdCode s.rxCmd s.rxLen <;> simp [h1]
  · simp [h1]

@[simp] theorem onVerdict_escPending (v : Byte) (p : List Byte) (s : State) :
    (onVerdict v p s).escPending = s.escPending := by
  rcases onVerdict_cases v p s with ⟨_, h⟩ | ⟨_, _, h⟩ | ⟨_, _, h⟩ <;> simp [h]
@[simp] theorem onVerdict_rxPhase (v : Byte) (p : List Byte) (s : State) :
    (onVerdict v p s).rxPhase = .idle := by
  rcases onVerdict_cases v p s with ⟨_, h⟩ | ⟨_, _, h⟩ | ⟨_, _, h⟩ <;> simp [h]
@[simp] theorem onVerdict_rxCmd (v : Byte) (p : List Byte) (s : State) :
    (onVerdict v p s).rxCmd = s.rxCmd := by
  rcases onVerdict_cases v p s with ⟨_, h⟩ | ⟨_, _, h⟩ | ⟨_, _, h⟩ <;> simp [h]
@[simp] theorem onVerdict_rxLen (v : Byte) (p : List Byte) (s : State) :
    (onVerdict v p s).rxLen = s.rxLen := by
  rcases onVerdict_cases v p s with ⟨_, h⟩ | ⟨_, _, h⟩ | ⟨_, _, h⟩ <;> simp [h]
@[simp] theorem onVerdict_rxCur (v : Byte) (p : List Byte) (s : State) :
    (onVerdict v p s).rxCur = s.rxCur := by
  rcases onVerdict_cases v p s with ⟨_, h⟩ | ⟨_, _, h⟩ | ⟨_, _, h⟩ <;> simp [h]
@[simp] theorem onVerdict_rxBuf (v : Byte) (p : List Byte) (s : State) :
    (onVerdict v p s).rxBuf = s.rxBuf := by
  rcases onVerdict_cases v p s with ⟨_, h⟩ | ⟨_, _, h⟩ | ⟨_, _, h⟩ <;> simp [h]
@[simp] theorem onVerdict_txOut (v : Byte) (p : List Byte) (s : State) :
    (onVerdict v p s).txOut = s.txOut := by
  rcases onVerdict_cases v p s with ⟨_, h⟩ | ⟨_, _, h⟩ | ⟨_, _, h⟩ <;> simp [h]
@[simp] theorem onVerdict_cmdCode (v : Byte) (p : List Byte) (s : State) :
    (onVerdict v p s).cmdCode = s.cmdCode := by
  rcases onVerdict_cases v p s with ⟨_, h⟩ | ⟨_, _, h⟩ | ⟨_, _, h⟩ <;> simp [h]
@[simp] theorem onVerdict_stimuli (v : Byte) (p : List Byte) (s : State) :
    (onVerdict v p s).stimuli = s.stimuli := by
  rcases onVerdict_cases v p s with ⟨_, h⟩ | ⟨_, _, h⟩ | ⟨_, _, h⟩ <;> simp [h]
@[simp] theorem onVerdict_tick (v : Byte) (p : List Byte) (s : State) :
    (onVerdict v p s).tick = s.tick := by
  rcases onVerdict_cases v p s with ⟨_, h⟩ | ⟨_, _, h⟩ | ⟨_, _, h⟩ <;> simp [h]

end Sys2Proof.Machine
end

