-- ==== Sys2Proof/Laws/Run.lean ====
section
/-! SUPPORT. Runs of operations, and the one step they are made of. -/

namespace Sys2Proof.Machine

@[simp] theorem runOps_nil (s : State) : runOps [] s = .next (s, []) := rfl

theorem runOps_cons_next {i : Instr} {s t : State} (is : List Instr) (h : exec i s = .next t) :
    runOps (i :: is) s =
      match runOps is t with
      | .next (u, os) => .next (u, outputsOf t.out ++ os)
      | .fault r => .fault r
      | .refused r => .refused r := by
  cases hr : runOps is t <;> simp [runOps, h, hr]

/-- A run that goes on is a first transition and the rest of the run. -/
theorem runOps_cons_eq_next {i : Instr} {is : List Instr} {s u : State} {os : List Output} :
    runOps (i :: is) s = .next (u, os) ↔
      ∃ t os', exec i s = .next t ∧ runOps is t = .next (u, os') ∧ os = outputsOf t.out ++ os' := by
  constructor
  · intro h
    rw [runOps] at h
    split at h
    · next t ht =>
      split at h
      · next u' os' hr => cases h; exact ⟨t, os', ht, hr, rfl⟩
      · cases h
      · cases h
    · cases h
    · cases h
  · rintro ⟨t, os', ht, hr, rfl⟩
    simp [runOps, ht, hr]

/-- A run over two lists is the run over the first and then over the second. -/
theorem runOps_append_next {xs : List Instr} {s t : State} {os : List Output} (ys : List Instr)
    (h : runOps xs s = .next (t, os)) :
    runOps (xs ++ ys) s =
      match runOps ys t with
      | .next (u, os') => .next (u, os ++ os')
      | .fault r => .fault r
      | .refused r => .refused r := by
  induction xs generalizing s os with
  | nil =>
    simp only [runOps_nil, Host.Outcome.next.injEq, Prod.mk.injEq] at h
    obtain ⟨rfl, rfl⟩ := h
    simp only [List.nil_append]
    split <;> simp_all
  | cons i xs ih =>
    obtain ⟨a, os', ha, hr, rfl⟩ := runOps_cons_eq_next.mp h
    rw [List.cons_append, runOps_cons_next _ ha, ih hr]
    cases runOps ys t <;> simp

/-- `exec` of RX_BYTE is the receive transition on the decoder's answer. -/
theorem exec_rxByte (w : Byte) (s : State) : exec (.rxByte w) s = receive (decodeByte s.escPending w) s := rfl

/-- A step with a key in front performs the row the key decodes to. -/
theorem step_key {s : State} {f : KeyFormat} {k : Nat} {rest : List Stimulus} {i : Instr}
    (hs : s.stimuli = .key f k :: rest) (hi : decodeKey s.cmdCode f k = .ok i) :
    runNext s = exec i { s with stimuli := rest } := by
  simp [runNext, hs, performStimulus, hi]

end Sys2Proof.Machine
end

