-- ==== Sys2Proof/Laws/Transmit.lean ====
section
/-! SUPPORT. Everything the transmit operations, RESET, the encoder rows and a whole step can do. -/

namespace Sys2Proof.Machine

/-- TX_FRAME reaches a next state only from an empty queue, with a request R171 accepts, and then pushes the wire frame (R170). -/
theorem execTxFrame_next {cmd len : Byte} {p : List Byte} {s t : State} (h : execTxFrame cmd len p s = .next t) :
    s.txOut = [] ∧ cmd.toNat < Config.nCmd ∧ len.toNat ≤ Config.maxLen ∧ p.length = len.toNat ∧
      t = s.begin.pushWire (wireFrame cmd len p) := by
  unfold execTxFrame at h
  split at h
  · cases h
  · next h1 =>
    split at h
    · cases h
    · next h2 =>
      split at h
      · cases h
      · next h3 =>
        cases h
        simp only [isBadRequest, Bool.or_eq_true, Bool.not_eq_true', not_or, Bool.not_eq_false] at h2
        exact ⟨by simpa using h1, of_decide_eq_true h2.1, of_decide_eq_true h2.2, by simpa using h3, rfl⟩

/-- TX_POP reaches a next state exactly when `tx_out` has a head (R172). -/
theorem execTxPop_next {s t : State} (h : execTxPop s = .next t) :
    ∃ b rest, s.txOut = b :: rest ∧
      t = { s with tick := s.tick + 1, txOut := rest, out := { Outputs.none with wire := some b } } := by
  unfold execTxPop at h
  split at h
  · cases h
  · next b rest hs => cases h; exact ⟨b, rest, hs, rfl⟩

/-- ENC_LIT reaches a next state only for a byte of its class (R103). -/
theorem execEncLit_next {b : Byte} {s t : State} (h : execEncLit b s = .next t) :
    mustEscape b = false ∧ t = encoderAnswers [b] s := by
  unfold execEncLit at h
  split at h
  · cases h
  · next hb => cases h; exact ⟨by simpa using hb, rfl⟩

/-- A property that every instruction keeps, an idle step keeps, and that does not depend on the stimuli and the outputs, is kept by the
operations of one step together. -/
theorem performTogether_keeps {P : State → Prop} (hexec : ∀ i s t, P s → exec i s = .next t → P t)
    (hidle : ∀ s : State, P s → P s.begin) (hout : ∀ (s : State) (o : Outputs), P s → P { s with out := o })
    (l : List Instr) (s t : State) (hs : P s) (h : performTogether l s = .next t) : P t := by
  induction l generalizing s t with
  | nil => cases h; exact hidle _ hs
  | cons i l ih =>
    cases l with
    | nil => exact hexec i s t hs h
    | cons j l =>
      rw [performTogether] at h
      · split at h
        · next a ha =>
          split at h
          · next b hb => cases h; exact hout _ _ (ih a b (hexec _ _ _ hs ha) hb)
          · cases h
          · cases h
        · cases h
        · cases h
      · simp

/-- A property that every instruction keeps, an idle step keeps, and that does not depend on the stimuli and the outputs, is kept by
every step. -/
theorem step_keeps {P : State → Prop} (hexec : ∀ i s t, P s → exec i s = .next t → P t)
    (hidle : ∀ s : State, P s → P s.begin) (hout : ∀ (s : State) (o : Outputs), P s → P { s with out := o })
    (hstim : ∀ (s : State) (x : List Stimulus), P s → P { s with stimuli := x })
    (s t : State) (hs : P s) (h : step s = .next t) : P t := by
  simp only [step, runNext] at h
  split at h
  · cases h; exact hidle _ hs
  · next x rest _ =>
    cases x with
    | ports p => exact performTogether_keeps hexec hidle hout _ _ _ (hstim _ _ hs) h
    | key f k =>
      simp only [performStimulus] at h
      split at h
      · exact hexec _ _ _ (hstim _ _ hs) h
      · cases h

end Sys2Proof.Machine
end

