-- ==== Sys2Proof/Tests/Slice0.lean ====
section
/-! SUPPORT. The model's own tests: words written out from the spec's encodings, one-step vectors of 95_test_vectors.md (its V- names
stand in the comments), ill-formed terms, and a witness for the hypotheses of every statement that has some. -/

namespace Sys2Proof.Tests

open Sys2Proof.Machine Sys2Proof.Safety

/-! ## Helpers -/

/-- The outcome is a next state with a property. -/
def after (o : Result) (p : State → Bool) : Bool :=
  match o with
  | .next t => p t
  | .fault _ => false
  | .refused _ => false

/-- The outcome is a refusal with a given name. -/
def refusedAs (o : Result) (r : Refusal) : Bool :=
  match o with
  | .next _ => false
  | .fault _ => false
  | .refused r' => r' == r

/-- A state in a phase, from reset. -/
def inPhase (ph : Phase) (esc : Bool := false) : State := { State.reset with rxPhase := ph, escPending := esc }

/-- A state in DATA with a length and a cursor, the bytes below the cursor stored. -/
def inData (len cur : Byte) (held : List Byte) : State :=
  { inPhase .data with rxCmd := 3, rxLen := len, rxCur := cur, rxBuf := (List.range held.length).zip held }

/-- A state in CHECKSUM with a buffered frame. -/
def inChecksum (cmd : Byte) (p : List Byte) (esc : Bool := false) : State :=
  { inPhase .checksum esc with
    rxCmd := cmd, rxLen := BitVec.ofNat 8 p.length, rxCur := BitVec.ofNat 8 p.length,
    rxBuf := (List.range p.length).zip p }

/-- A state with bytes to send. -/
def sending (ws : List Byte) : State := { State.reset with txOut := ws }

/-- A `CMD_CODE` other than the default: the listed order reversed. -/
def reversed : Config.CmdCode :=
  { speedRequest := 4, speedIndication := 3, currentOverflowIndication := 2, currentIndication := 1, rangeIndication := 0,
    distinct := by decide }

/-- Port inputs with nothing driven. -/
def quietPorts : PortInputs :=
  { rst := false, rxValid := false, rxByte := 0, txValid := false, txCmd := 0, txLen := 0, txPayload := [],
    wireReady := false }

/-- A state that is about to take these port inputs. -/
def presenting (p : PortInputs) (s : State := State.reset) : State := { s with stimuli := [.ports p] }

/-! ## Well-formedness: a term each check refuses -/

theorem test_wf_txFrame_payload_length : Instr.wellFormed (.txFrame 3 3 [0xD0, 0x07]) = false := by decide
theorem test_wf_decLit_delimiter : Instr.wellFormed (.decLit 0xC0) = false := by decide
theorem test_wf_decLit_escape : Instr.wellFormed (.decLit 0xDB) = false := by decide
theorem test_wf_decEscBad_delimiter : Instr.wellFormed (.decEscBad 0xC0) = false := by decide
theorem test_wf_decEscBad_escapeDelim : Instr.wellFormed (.decEscBad 0xDC) = false := by decide
theorem test_wf_decEscBad_escapeEscape : Instr.wellFormed (.decEscBad 0xDD) = false := by decide
theorem test_wf_encLit_delimiter : Instr.wellFormed (.encLit 0xC0) = false := by decide
theorem test_wf_encLit_escape : Instr.wellFormed (.encLit 0xDB) = false := by decide
theorem test_wf_cmdReserved_known : Instr.wellFormed (.cmdReserved 4) = false := by decide
theorem test_wf_accepts : Instr.wellFormed (.cmdReserved 5) = true ∧ Instr.wellFormed (.txFrame 2 0 []) = true := by
  decide

/-! ## Decoding: a word of each row, written out from R74, R75, R78, R79 and R87 -/

theorem test_decode_decDelim :
    decodeKey .listed .dec9 0b0_1100_0000 = .ok (.decDelim false) ∧ decodeKey .listed .dec9 0b1_1100_0000 = .ok (.decDelim true) := by
  decide
theorem test_decode_decEsc : decodeKey .listed .dec9 0b0_1101_1011 = .ok .decEsc := by decide
theorem test_decode_decEscDelim : decodeKey .listed .dec9 0b1_1101_1100 = .ok .decEscDelim := by decide
theorem test_decode_decEscEsc : decodeKey .listed .dec9 0b1_1101_1101 = .ok .decEscEsc := by decide
theorem test_decode_decLit :
    decodeKey .listed .dec9 0b0_1101_1100 = .ok (.decLit 0xDC) ∧ decodeKey .listed .dec9 0 = .ok (.decLit 0) := by decide
theorem test_decode_decEscBad :
    decodeKey .listed .dec9 0b1_1101_1011 = .ok (.decEscBad 0xDB) ∧ decodeKey .listed .dec9 0x1FF = .ok (.decEscBad 0xFF) := by decide
theorem test_decode_encDelim : decodeKey .listed .enc8 0b1100_0000 = .ok .encDelim := by decide
theorem test_decode_encEsc : decodeKey .listed .enc8 0b1101_1011 = .ok .encEsc := by decide
theorem test_decode_encLit : decodeKey .listed .enc8 0b1101_1101 = .ok (.encLit 0xDD) := by decide
theorem test_decode_commands :
    decodeKey .listed .cmd8 0 = .ok .speedRequest ∧ decodeKey .listed .cmd8 1 = .ok .speedIndication ∧
    decodeKey .listed .cmd8 2 = .ok .currentOverflowIndication ∧ decodeKey .listed .cmd8 3 = .ok .currentIndication ∧
    decodeKey .listed .cmd8 4 = .ok .rangeIndication := by decide
theorem test_decode_cmdReserved :
    decodeKey .listed .cmd8 5 = .ok (.cmdReserved 5) ∧ decodeKey .listed .cmd8 0xFF = .ok (.cmdReserved 0xFF) := by decide
theorem test_decode_rejects_wide_keys :
    decodeKey .listed .dec9 0x200 = .error .keyTooWide ∧ decodeKey .listed .enc8 0x100 = .error .keyTooWide := by decide
theorem test_decode_ports_rxByte :
    decodePorts { PortLevels.quiet with rxValid := true, rxByte := 0x41 } = [.rxByte 0x41] := by decide
theorem test_decode_ports_txFrame :
    decodePorts { PortLevels.quiet with txValid := true, txReady := true, txCmd := 3, txLen := 2, txPayload := [1, 2, 9] } =
      [.txFrame 3 2 [1, 2]] := by decide
theorem test_decode_ports_txPop :
    decodePorts { PortLevels.quiet with wireValid := true, wireReady := true, txValid := true } = [.txPop] := by decide
theorem test_decode_ports_reset :
    decodePorts { PortLevels.quiet with rst := true, rxValid := true } = [.reset] := by decide
theorem test_decode_ports_none : decodePorts { PortLevels.quiet with wireReady := true, txReady := true } = [] := by
  decide
theorem test_tableWord :
    decodeTableWord 16 0x1DC = some .decEscDelim ∧ decodeTableWord 8 0xDB = some .encEsc ∧
    decodeTableWord 8 0x04 = some .rangeIndication ∧ decodeTableWord 16 0x200 = none ∧ decodeTableWord 0 0 = none := by
  decide

/-! ## The step runs a placed word as the first one after reset -/

theorem test_step_decEscBad :
    after (step (State.reset.withFetchWord 16 0x141))
      (fun t => t.out.ev == some ⟨.badEscape, 0x41⟩ && t.escPending == false) = true := by decide
theorem test_step_command :
    after (step (State.reset.withFetchWord 8 0x03)) (fun t => t.rxPhase == .len && t.rxCmd == 3) = true := by decide
theorem test_step_encDelim :
    after (step (State.reset.withFetchWord 8 0xC0)) (fun t => t.out.enc == some [0xDB, 0xDC]) = true := by decide
/-- R63: both sides move in one step, and both outputs are seen. -/
theorem test_step_both_sides :
    after (step (presenting { quietPorts with rxValid := true, rxByte := 0x05, wireReady := true }
        { inPhase .command with txOut := [0x29] }))
      (fun t => t.out.ev == some ⟨.unknownCmd, 5⟩ && t.out.wire == some 0x29 && t.txOut == []) = true := by decide
/-- R171, V-T13: the request is refused, the wire byte of the same step is taken. -/
theorem test_step_refused_request :
    after (step (presenting { quietPorts with rxValid := true, rxByte := 0xC0, txValid := true, txCmd := 5 }))
      (fun t => t.rxPhase == .command && t.txOut == []) = true := by decide

/-! ## RX_BYTE and the decoder classes (95 §3, §5) -/

/-- V-R1. -/
theorem test_rxByte_idle : after (exec (.rxByte 0x41) (inPhase .idle))
    (fun t => t.rxPhase == .idle && t.out == Outputs.none) = true := by decide
/-- V-R26: an escaped checksum completes the frame. -/
theorem test_rxByte_escaped_checksum : after (exec (.rxByte 0xDC) (inChecksum 3 [0x3F, 0, 0] true))
    (fun t => t.out.msg == some ⟨3, 3, [0x3F, 0, 0]⟩ && t.rxPhase == .idle && t.escPending == false) = true := by decide
/-- V-R19. -/
theorem test_decDelim_abandons : after (exec (.decDelim false) (inData 1 0 []))
    (fun t => t.rxPhase == .command && t.out == Outputs.none && t.rxBuf == []) = true := by decide
/-- V-R28: no event for ESCAPE then DELIMITER. -/
theorem test_decDelim_after_escape : after (exec (.decDelim true) (inPhase .checksum true))
    (fun t => t.rxPhase == .command && t.escPending == false && t.out.ev == none) = true := by decide
/-- V-R20. -/
theorem test_decEsc : after (exec .decEsc (inData 3 1 [0xD0]))
    (fun t => t.escPending && t.rxPhase == .data && t.rxCur == 1) = true := by decide
/-- V-R16: an escaped length of 192. -/
theorem test_decEscDelim : after (exec .decEscDelim (inPhase .len true))
    (fun t => t.rxPhase == .data && t.rxLen == 192 && t.rxCur == 0 && t.escPending == false) = true := by decide
/-- V-R21. -/
theorem test_decEscEsc : after (exec .decEscEsc { inData 3 1 [0xD0] with escPending := true })
    (fun t => t.rxCur == 2 && t.rxBuf.read 1 == some 0xDB && t.rxBuf.read 0 == some 0xD0) = true := by decide
/-- V-R23: the last index of the buffer. -/
theorem test_decLit_last_index : after (exec (.decLit 0x7E) (inData 254 253 []))
    (fun t => t.rxPhase == .checksum && t.rxCur == 254 && t.rxBuf.read 253 == some 0x7E) = true := by decide
/-- V-R15. -/
theorem test_decLit_bad_length : after (exec (.decLit 0xFF) (inPhase .len))
    (fun t => t.out.ev == some ⟨.badLen, 0xFF⟩ && t.rxPhase == .idle && t.rxLen == 0) = true := by decide
/-- V-D18: a doubled ESCAPE is an error, not a new escape. -/
theorem test_decEscBad_double : after (exec (.decEscBad 0xDB) (inPhase .data true))
    (fun t => t.out.ev == some ⟨.badEscape, 0xDB⟩ && t.escPending == false && t.rxPhase == .idle) = true := by decide
/-- V-C14. -/
theorem test_checksum_mismatch : after (exec (.rxByte 0x28) (inChecksum 3 [0xD0, 0x07, 0x01]))
    (fun t => t.out.ev == some ⟨.badChecksum, 0x28⟩ && t.out.msg == none) = true := by decide
/-- V-C15. -/
theorem test_size_mismatch : after (exec (.rxByte 0xFE) (inChecksum 3 [0, 0]))
    (fun t => t.out.ev == some ⟨.sizeMismatch, 2⟩ && t.out.msg == none) = true := by decide
/-- 93 §1: a read of an unspecified byte faults, in a state no run reaches. -/
theorem test_unspecified_read_faults :
    exec (.rxByte 0) { inChecksum 3 [0, 0] with rxBuf := [(0, 0)] } = .fault .bufferByteUnspecified := by rfl

/-! ## The encoder rows and the command rows -/

/-- V-E4, V-E5, V-E6. -/
theorem test_encoder_rows :
    after (exec .encDelim State.reset) (fun t => t.out.enc == some [0xDB, 0xDC]) = true ∧
    after (exec .encEsc State.reset) (fun t => t.out.enc == some [0xDB, 0xDD]) = true ∧
    after (exec (.encLit 0xDC) State.reset) (fun t => t.out.enc == some [0xDC]) = true := by decide
/-- V-R6, V-R7. -/
theorem test_command_rows :
    after (exec .currentIndication (inPhase .command)) (fun t => t.rxCmd == 3 && t.rxPhase == .len) = true ∧
    after (exec .rangeIndication (inPhase .command)) (fun t => t.rxCmd == 4 && t.rxPhase == .len) = true := by decide
/-- V-R11: 0xC0 as the COMMAND byte comes escaped and is unknown. -/
theorem test_cmdReserved_escaped : after (exec (.cmdReserved 0xC0) (inPhase .command true))
    (fun t => t.out.ev == some ⟨.unknownCmd, 0xC0⟩ && t.escPending == false && t.rxPhase == .idle) = true := by decide
/-- R78: a length or payload byte is no command. -/
theorem test_command_row_not_selected : refusedAs (exec .speedRequest (inPhase .data)) .notSelected = true := by decide

/-! ## The transmit side and reset (95 §6) -/

/-- V-T4. -/
theorem test_txFrame_escapes : after (exec (.txFrame 3 3 [0xC0, 0xDB, 0x02]) State.reset)
    (fun t => t.txOut == [0xC0, 0x03, 0x03, 0xDB, 0xDC, 0xDB, 0xDD, 0x02, 0xE6]) = true := by decide
/-- V-T3: the checksum is escaped too. -/
theorem test_txFrame_escapes_checksum : after (exec (.txFrame 3 3 [0x3F, 0, 0]) State.reset)
    (fun t => t.txOut == [0xC0, 0x03, 0x03, 0x3F, 0x00, 0x00, 0xDB, 0xDC] && !txReady t) = true := by decide
/-- V-T14, V-T15. -/
theorem test_txFrame_refused :
    refusedAs (exec (.txFrame 0 255 []) State.reset) .txBadRequest = true ∧
    refusedAs (exec (.txFrame 3 0 []) (sending [0x29])) .txBusy = true := by decide
/-- V-T16, V-T17. -/
theorem test_txPop : after (exec .txPop (sending [0x01, 0x29])) (fun t => t.txOut == [0x29] && t.out.wire == some 1) = true ∧
    after (exec .txPop (sending [0x29])) (fun t => txReady t && t.out.wire == some 0x29) = true := by decide
/-- V-T18. -/
theorem test_txPop_empty : refusedAs (exec .txPop State.reset) .noWireByte = true := by decide
/-- V-T19, R230. -/
theorem test_reset : after (exec .reset { inData 3 1 [0xD0] with escPending := true, txOut := [0xD0, 0x29] })
    (fun t => t.txOut == [] && t.rxPhase == .idle && !t.escPending && t.out == Outputs.none) = true := by decide

/-! ## Functions -/

/-- V-C1, V-C6, V-C8, V-C10. -/
theorem test_checksum_vectors :
    checksum 3 3 [0xD0, 0x07, 0x01] = 0x29 ∧ checksum 3 3 [0x3F, 0, 0] = 0xC0 ∧ checksum 1 1 [0x24] = 0xDB ∧
    checksum 2 2 [0xAA, 0xAA] = 0xFF := by decide
/-- V-S4, V-S5: current 2000 on motor 1; range 5831 on sensor 0. -/
theorem test_payload_fields :
    currentFields [0xD0, 0x07, 0x01] = some (2000, 1) ∧ rangeFields [0xC7, 0x16, 0x00] = some (5831, 0) := by decide
/-- R22. -/
theorem test_phase_codes : [Phase.idle, .command, .len, .data, .checksum].map phaseCode = [0, 1, 2, 3, 4] := by decide
/-- R38: the ports in the delivering transition. -/
theorem test_ports_deliver : after (exec (.rxByte 0x29) (inChecksum 3 [0xD0, 0x07, 0x01]))
    (fun t => msgValid t && msgLen t == 3 && msgRdData t 0 == 0xD0 && msgRdData t 2 == 0x01 && !evValid t) = true := by
  decide
/-- R200: the codes on `ev_code`. -/
theorem test_event_codes :
    [EventCode.badEscape, .unknownCmd, .badLen, .badChecksum, .sizeMismatch].map eventCode = [1, 2, 3, 4, 5] := by decide
/-- R79: at another pairing RangeIndication stands at 0, and its key and expected length follow. -/
theorem test_other_pairing :
    decodeKey reversed .cmd8 0 = .ok .rangeIndication ∧ expLen reversed 1 = .exactly 3 ∧
    after (exec .rangeIndication { inPhase .command with cmdCode := reversed })
      (fun t => t.rxCmd == 0 && t.rxPhase == .len) = true := by decide
/-- R89: script lines. -/
theorem test_parse_rx : parseLine ['r', 'x', ' ', 'D', 'B', ' ', '4', '1', ' ', ';', 'x'] = some (.rx [0xDB, 0x41]) := by
  decide
theorem test_parse_tx : parseLine ['t', 'x', ' ', '0', '3', ' ', '3', 'f'] = some (.tx 3 [0x3F]) ∧
    parseLine ['p', 'o', 'p', '*'] = some .popAll ∧ parseLine [';', ' ', 'c'] = some .comment ∧
    parseLine ['p', 'u', 's', 'h'] = none := by decide

/-! ## Witnesses: the hypotheses of each statement are met -/

/-- EveryKeyHitsExactlyOneRow, both clauses where they meet. -/
theorem witness_key_width : 511 < 2 ^ KeyFormat.dec9.width ∧ 2 ^ KeyFormat.dec9.width ≤ 512 ∧
    255 < 2 ^ KeyFormat.cmd8.width ∧ 2 ^ KeyFormat.cmd8.width ≤ 256 := by decide
theorem witness_DecodeInvertsEncodeOnRows : Instr.wellFormed (.txFrame 0 2 [7, 7]) = true ∧
    Instr.wellFormed (.decLit 0xDC) = true := by decide
theorem witness_EncodeInvertsDecodeOnKeys : decodeKey .listed .dec9 0x1C0 = .ok (.decDelim true) := by decide
theorem witness_StepRunsThePresentedRow :
    (State.reset.withFetchWord 16 0x0DB).stimuli = [.key .dec9 0x0DB] ∧ decodeKey .listed .dec9 0x0DB = .ok .decEsc := by decide
theorem witness_ResetPortExcludesTheOthers :
    (presenting { quietPorts with rst := true, rxValid := true }).stimuli =
      [.ports { quietPorts with rst := true, rxValid := true }] := by rfl
/-- StepPerformsTheSelectedOperation, the RX_BYTE clause: with no request, beside a refused one, and beside one that must wait. -/
theorem witness_StepPerformsRxByteAlone :
    (presenting { quietPorts with rxValid := true }).stimuli = [.ports { quietPorts with rxValid := true }] ∧
    (presenting { quietPorts with rxValid := true, txValid := true, txCmd := 5, wireReady := true }).txOut = [] ∧
    5 ≤ (5#8).toNat ∧ (presenting { quietPorts with rxValid := true, txValid := true } (sending [1])).txOut ≠ [] := by decide
theorem witness_StepPerformsTheSelectedOperation :
    (presenting { quietPorts with txValid := true, txCmd := 4, txLen := 254 }).txOut = [] ∧ (4#8).toNat < 5 ∧
    (254#8).toNat ≤ 254 ∧ (presenting { quietPorts with wireReady := true } (sending [1])).txOut ≠ [] := by decide
theorem witness_StepPerformsBothSides : ∃ a b,
    exec (.rxByte 0xC0) { sending [1] with stimuli := [] } = .next a ∧ exec .txPop a = .next b :=
  ⟨_, _, rfl, rfl⟩
theorem witness_RefusedRequestChangesNothing : State.reset.txOut = [] ∧ 5 ≤ (5#8).toNat ∧ 254 < (255#8).toNat := by decide
theorem witness_IdleStepKeepsAllState : State.reset.stimuli = [] := rfl
theorem witness_ResetForgetsTheState :
    (inPhase .data).tick = State.reset.tick ∧ (inPhase .data).stimuli = State.reset.stimuli ∧
    (inPhase .data).cmdCode = State.reset.cmdCode := ⟨rfl, rfl, rfl⟩
theorem witness_AfterResetBytesAreIgnoredUntilDelimiter :
    (∃ t, exec .reset (inPhase .data) = .next t) ∧ 0xC0#8 ∉ [0xDB#8, 0x41#8] := ⟨⟨_, rfl⟩, by decide⟩
theorem witness_EncoderRowsAnswerAsSpecified : (0xDC#8 : Byte) ≠ 0xC0 ∧ (0xDC#8 : Byte) ≠ 0xDB := by decide
theorem witness_DecodeByteFollowsItsTable : (0xDB#8 : Byte) ≠ 0xC0 ∧ (0xDB#8 : Byte) ≠ 0xDC ∧ (0xDB#8 : Byte) ≠ 0xDD := by
  decide
theorem witness_EncodedBytesHoldNoDelimiter : (encodeBytes [0xC0#8, 1#8])[0]? = some 0xDB#8 := by decide
theorem witness_ChecksumFoldsInAnyOrder : [1#8, 2#8].Perm [2#8, 1#8] := by decide
theorem witness_ChecksumDetectsOneChangedByte : ([1#8, 2#8] : List Byte)[1]? = some 2#8 ∧ (3#8 : Byte) ≠ 2#8 := by decide
theorem witness_WireFrameLengthBounds : IsWireFrame (wireFrame 2 0 []) := ⟨2, 0, [], by decide, by decide, rfl, rfl⟩
theorem witness_EscapeByteBeginsAnEscape : (inPhase .data).escPending = false := rfl
theorem witness_BadEscapeDiscardsTheFrame :
    (inPhase .idle true).escPending = true ∧ (0xDB#8 : Byte) ≠ 0xC0 ∧ (0xDB#8 : Byte) ≠ 0xDC ∧ (0xDB#8 : Byte) ≠ 0xDD := by
  decide
theorem witness_IdleIgnoresLogicalBytes :
    decodeByte (inPhase .idle).escPending 0xDC = (false, .byte 0xDC) ∧ (inPhase .idle).rxPhase = .idle := by decide
/-- CommandByteIsCheckedAgainstTheCount: both clauses where they meet. -/
theorem witness_CommandByteIsCheckedAgainstTheCount :
    decodeByte (inPhase .command).escPending 4 = (false, .byte 4) ∧ (4#8).toNat < 5 ∧
    decodeByte (inPhase .command).escPending 5 = (false, .byte 5) ∧ 5 ≤ (5#8).toNat ∧
    (inPhase .command).rxPhase = .command := by decide
/-- LengthByteIsCheckedAgainstTheRange: 0, 254 and 255. -/
theorem witness_LengthByteIsCheckedAgainstTheRange :
    decodeByte (inPhase .len).escPending 0 = (false, .byte 0) ∧ (0#8).toNat ≤ 254 ∧
    decodeByte (inPhase .len).escPending 254 = (false, .byte 254) ∧ (254#8).toNat ≤ 254 ∧
    decodeByte (inPhase .len).escPending 255 = (false, .byte 255) ∧ 254 < (255#8).toNat ∧
    (inPhase .len).rxPhase = .len := by decide
theorem witness_DataByteIsStoredAtTheCursor :
    decodeByte (inData 254 253 []).escPending 0x7E = (false, .byte 0x7E) ∧ (inData 254 253 []).rxPhase = .data ∧
    (inData 254 253 []).rxCur.toNat < 254 := by decide
/-- ChecksumByteDecidesTheFrame: its premises, and each verdict's condition. -/
theorem witness_ChecksumByteDecidesTheFrame :
    decodeByte (inChecksum 3 [1, 2, 3]).escPending 0xFF = (false, .byte 0xFF) ∧
    (inChecksum 3 [1, 2, 3]).rxPhase = .checksum ∧ (inChecksum 3 [1, 2, 3]).rxLen.toNat ≤ 254 ∧
    ([1, 2, 3] : List Byte).length = (inChecksum 3 [1, 2, 3]).rxLen.toNat ∧
    (∀ i, i < 3 → (inChecksum 3 [1, 2, 3]).rxBuf.read i = ([1, 2, 3] : List Byte)[i]?) ∧
    checksum 3 3 [1, 2, 3] = 0xFF ∧ checksum 3 2 [0, 0] = 0xFE ∧
    expLen .listed 3 = .exactly 3 := by decide
theorem witness_LogicalByteClassesComplete :
    RxInv (inData 3 1 [0xD0]) ∧ RxInv { inData 3 1 [0xD0] with escPending := true } := by decide
theorem witness_CommandRowsStartTheirFrame : (inPhase .command).rxPhase = .command ∧ (inPhase .command).escPending = false :=
  ⟨rfl, rfl⟩
theorem witness_ReservedCommandIsRejected :
    (inPhase .command).rxPhase = .command ∧ 5 ≤ (5#8).toNat ∧
    ((inPhase .command).escPending = true ↔ (5#8 = 0xC0#8 ∨ 5#8 = 0xDB#8)) ∧
    ((inPhase .command true).escPending = true ↔ (0xC0#8 = 0xC0#8 ∨ 0xC0#8 = 0xDB#8)) := by decide
theorem witness_UnselectedRowsAreRefused :
    (inPhase .data true).escPending = true ∧ (inPhase .data).escPending = false ∧ (inPhase .data).rxPhase ≠ .command ∧
    true ≠ (inPhase .data).escPending ∧ (4#8).toNat < 5 ∧
    ¬ ((inPhase .command true).escPending = true ↔ (5#8 = 0xC0#8 ∨ 5#8 = 0xDB#8)) := by decide
theorem witness_CommandPhaseByteIsItsCommandRow :
    (inPhase .command true).rxPhase = .command ∧
    decodeByte (inPhase .command true).escPending 0xDC = (false, .byte 0xC0) := by decide
/-- ReceiveRowsAreRxBytes, ReceiveRowsFrame. -/
theorem witness_ReceiveRowsFrame : isReceiveRow (.decLit 7) = true ∧ ∃ t, exec (.decLit 7) (inData 3 1 [0xD0]) = .next t :=
  ⟨rfl, _, rfl⟩
theorem witness_TransmitAndEncoderRowsFrame :
    isReceiveRow (.encLit 7) = false ∧ Instr.encLit 7 ≠ .reset ∧ ∃ t, exec (.encLit 7) (inPhase .data) = .next t :=
  ⟨rfl, by decide, _, rfl⟩
theorem witness_ReceiveAndTransmitCommute : isTransmitRow .txPop = true ∧ ∃ a b c d,
    exec (.rxByte 0x41) (sending [1]) = .next a ∧ exec .txPop a = .next b ∧ exec .txPop (sending [1]) = .next c ∧
    exec (.rxByte 0x41) c = .next d := ⟨rfl, _, _, _, _, rfl, rfl, rfl, rfl⟩
/-- AtMostOneOutputPerByte, ErrorEntrySavesNothing, OnlyReceiveRowsReport. -/
theorem witness_ErrorEntrySavesNothing : ∃ t, exec (.rxByte 5) (inPhase .command) = .next t ∧
    t.out.ev = some ⟨.unknownCmd, 5⟩ := ⟨_, rfl, rfl⟩
/-- IdleIsLeftOnlyByADelimiter, both clauses. -/
theorem witness_IdleIsLeftOnlyByADelimiter :
    (∃ t, exec (.rxByte 0xC0) (inPhase .idle) = .next t ∧ t.rxPhase ≠ .idle) ∧
    (∃ t, exec (.rxByte 0x41) (inPhase .idle true) = .next t ∧ t.out.ev = some ⟨.badEscape, 0x41⟩) :=
  ⟨⟨_, rfl, by decide⟩, ⟨_, rfl, rfl⟩⟩
/-- DeliveredMessageIsReadAtThePorts, DeliveredMessageStaysForItsWindow. -/
theorem witness_DeliveredMessage : ∃ t t1 t2 t3,
    exec (.rxByte 0x29) (inChecksum 3 [0xD0, 0x07, 0x01]) = .next t ∧ t.out.msg = some ⟨3, 3, [0xD0, 0x07, 0x01]⟩ ∧
    exec (.rxByte 0xC0) t = .next t1 ∧ exec (.rxByte 4) t1 = .next t2 ∧ exec (.rxByte 3) t2 = .next t3 :=
  ⟨_, _, _, _, rfl, rfl, rfl, rfl, rfl⟩
theorem witness_PortLinesFollowTheState :
    (sending [1, 2]).txOut = 1 :: [2] ∧ ({ State.reset with out := { Outputs.none with ev := some ⟨.badLen, 255⟩ } } : State).out.ev =
      some ⟨.badLen, 255⟩ ∧ State.reset.out.ev = none ∧ State.reset.out.msg = none := by decide
/-- GapsBetweenBytesDoNotMatter: a byte between two idle steps. -/
theorem witness_GapsBetweenBytesDoNotMatter : RxInv (inData 3 1 [0xD0]) ∧
    (∀ p ∈ [quietPorts, { quietPorts with rxValid := true, rxByte := 7 }, quietPorts], receivesOnly p = true) ∧
    presentedBytes [quietPorts, { quietPorts with rxValid := true, rxByte := 7 }, quietPorts] = [7] := by decide
/-- TxFramePushesTheWireFrame, at the largest command and length. -/
theorem witness_TxFramePushesTheWireFrame :
    State.reset.txOut = [] ∧ (4#8).toNat < 5 ∧ (254#8).toNat ≤ 254 ∧ (List.replicate 254 0#8).length = (254#8).toNat :=
  ⟨rfl, by decide, by decide, List.length_replicate ..⟩
theorem witness_TxFrameIsRefusedWhenBusyOrBad :
    (sending [1]).txOut ≠ [] ∧ State.reset.txOut = [] ∧ 5 ≤ (5#8).toNat ∧ 254 < (255#8).toNat := by decide
/-- TxPopTakesTheHead, PoppingAllSendsTheQueueInOrder. -/
theorem witness_TxPopTakesTheHead : (sending [1]).txOut = 1 :: [] ∧ State.reset.txOut = [] ∧ 1 ≤ (sending [1]).txOut.length := by
  decide
theorem witness_TransmittedFrameIsReceived : State.reset.txOut = [] ∧ (3#8).toNat < 5 ∧ (3#8).toNat ≤ 254 ∧
    ([1, 2, 3] : List Byte).length = (3#8).toNat ∧
    (expLen .listed 3 = .any ∨ ∃ n, expLen .listed 3 = .exactly n ∧ n.val = (3#8).toNat) :=
  ⟨rfl, by decide, by decide, rfl, .inr ⟨3, rfl, rfl⟩⟩
theorem witness_WrongSizedFrameIsDropped : State.reset.txOut = [] ∧ (3#8).toNat < 5 ∧ (0#8).toNat ≤ 254 ∧
    ([] : List Byte).length = (0#8).toNat ∧ expLen .listed 3 = .exactly 3 ∧ (3 : Fin 255).val ≠ (0#8).toNat := by decide
theorem witness_GarbageThenAFrameDeliversTheFrame : RxInv State.reset ∧ (3#8).toNat < 5 ∧ (3#8).toNat ≤ 254 ∧
    ([1, 2, 3] : List Byte).length = (3#8).toNat ∧ messagesOf [.event ⟨.badEscape, 0x41⟩] = [] := by decide
/-- EveryStepKeepsTheReceiveInvariant, EveryStepKeepsTheBufferCanonical. -/
theorem witness_step_invariants : RxInv (presenting { quietPorts with rxValid := true, rxByte := 7 } (inData 3 1 [0xD0])) ∧
    BufInv (presenting { quietPorts with rxValid := true, rxByte := 7 } (inData 3 1 [0xD0])) ∧
    after (step (presenting { quietPorts with rxValid := true, rxByte := 7 } (inData 3 1 [0xD0])))
      (fun t => t.rxBuf.read 1 == some 7) = true := by decide
theorem witness_EveryStepKeepsAtMostOneFrameQueued : TxInv (sending [0xFD]) ∧
    ∃ t, step (presenting { quietPorts with wireReady := true } (sending [0xFD])) = .next t :=
  ⟨.inr ⟨_, ⟨2, 0, [], by decide, by decide, rfl, rfl⟩, ⟨[0xC0, 2, 0], by decide⟩⟩, _, rfl⟩
/-- NoWireByteStopsTheBlock, NoPortInputsStopTheBlock. -/
theorem witness_NoPortInputsStopTheBlock : RxInv (inChecksum 3 [1, 2, 3]) ∧
    DrivesPayload { quietPorts with txValid := true, txCmd := 3, txLen := 3, txPayload := [1, 2, 3] } := by decide

end Sys2Proof.Tests
end

namespace Sys2Proof.Proofs

open Sys2Proof.Machine

/-- Settles O5. `step` is `runNext` (R10), and the law `step_key` gives the row that `runNext` performs on a key stimulus (the model's own,
log entry 7). -/
theorem stepRunsThePresentedRow : Obligations.StepRunsThePresentedRow := by
  intro s f k rest i hstim hrow
  calc step s = runNext s := rfl
    _ = exec i { s with stimuli := rest } := step_key hstim hrow

end Sys2Proof.Proofs

/-! Family 10_state: what one instruction can do, and the invariants of R28 and R30 along every step. -/

namespace Sys2Proof.Proofs

open Sys2Proof.Machine Sys2Proof.Safety

/-! ## Everything an instruction can do -/

/-- A guarded transition that reaches a next state passed its guard. -/
theorem guard_next {c : Prop} [Decidable c] {r : Result} {why : Refusal} {t : State}
    (h : (if c then r else .refused why) = .next t) : c ∧ r = .next t := by
  split at h
  · next hc => exact ⟨hc, h⟩
  · cases h

/-- Every receive row that is performed is a receive transition on some decoder answer (R74, R78, R140): behind its guard stands
`receive`, and CMD_RESERVED alone has a second guard in front. -/
theorem exec_receiveRow_next {i : Instr} {s t : State} (hi : isReceiveRow i = true) (h : exec i s = .next t) :
    ∃ d, receive d s = .next t := by
  cases i with
  | rxByte w => exact ⟨_, h⟩
  | decDelim _ | decEsc | decEscDelim | decEscEsc | decLit _ | decEscBad _ => exact ⟨_, (guard_next h).2⟩
  | speedRequest | speedIndication | currentOverflowIndication | currentIndication | rangeIndication =>
    exact ⟨_, (guard_next h).2⟩
  | cmdReserved c =>
    simp only [exec, execCmdReserved] at h
    split at h
    · cases h
    · exact ⟨_, (guard_next h).2⟩
  | txFrame _ _ _ | txPop | reset | encDelim | encEsc | encLit _ => cases hi

/-- Every way in which an instruction reaches a next state: a receive transition, RESET, TX_FRAME, TX_POP, or an encoder answer. -/
theorem exec_next_cases {i : Instr} {s t : State} (h : exec i s = .next t) :
    (∃ d, receive d s = .next t) ∨
    execReset s = .next t ∨
    (∃ cmd len p, execTxFrame cmd len p s = .next t) ∨
    execTxPop s = .next t ∨
    ∃ ws, t = encoderAnswers ws s := by
  cases i with
  | reset => exact .inr (.inl h)
  | txFrame cmd len p => exact .inr (.inr (.inl ⟨cmd, len, p, h⟩))
  | txPop => exact .inr (.inr (.inr (.inl h)))
  | encDelim => cases h; exact .inr (.inr (.inr (.inr ⟨_, rfl⟩)))
  | encEsc => cases h; exact .inr (.inr (.inr (.inr ⟨_, rfl⟩)))
  | encLit b => exact .inr (.inr (.inr (.inr ⟨_, (execEncLit_next h).2⟩)))
  | _ => exact .inl (exec_receiveRow_next rfl h)

/-! ## The receive invariant of R30 -/

/-- The invariant reads five fields only. -/
theorem rxInv_of_eq {s t : State} (hs : RxInv s) (hphase : t.rxPhase = s.rxPhase) (hcmd : t.rxCmd = s.rxCmd)
    (hlen : t.rxLen = s.rxLen) (hcur : t.rxCur = s.rxCur) (hbuf : t.rxBuf = s.rxBuf) : RxInv t := by
  simpa only [RxInv, HoldsCommand, HoldsLength, hphase, hcmd, hlen, hcur, hbuf] using hs

/-- In IDLE and COMMAND no frame field is held, so the invariant asks nothing. -/
theorem rxInv_of_noFrame {t : State} (h : t.rxPhase = .idle ∨ t.rxPhase = .command) : RxInv t := by
  rcases h with h | h <;> simp [RxInv, HoldsCommand, HoldsLength, h]

/-- The phase after a LEN or DATA byte tells whether payload bytes are still due. -/
theorem checksumOrData_eq_checksum_iff (c : Prop) [Decidable c] :
    (if c then Phase.checksum else Phase.data) = .checksum ↔ c := by
  by_cases h : c <;> simp [h]

theorem checksumOrData_eq_data_iff (c : Prop) [Decidable c] :
    (if c then Phase.checksum else Phase.data) = .data ↔ ¬ c := by
  by_cases h : c <;> simp [h]

/-- A legal LEN byte starts DATA at cursor 0, or with length 0 goes straight to CHECKSUM (R146). -/
theorem rxInv_of_len {t : State} {v : Byte} (hcmd : t.rxCmd.toNat < Config.nCmd) (hv : v.toNat ≤ Config.maxLen)
    (hlen : t.rxLen = v) (hcur : t.rxCur = 0) (hphase : t.rxPhase = if v = 0 then .checksum else .data) : RxInv t := by
  refine ⟨fun _ => hcmd, fun _ => hlen ▸ hv, fun hd => ?_, fun hc => ?_, fun _ i hi => by simp [hcur] at hi⟩
  · have hv0 : v ≠ 0 := (checksumOrData_eq_data_iff _).mp (hphase.symm.trans hd)
    have : v.toNat ≠ 0 := fun h => hv0 (BitVec.eq_of_toNat_eq h)
    simpa [hcur, hlen] using Nat.pos_of_ne_zero this
  · rw [hcur, hlen, (checksumOrData_eq_checksum_iff (v = 0)).mp (hphase.symm.trans hc)]

/-- A DATA byte is stored at the cursor, which moves on to the length at most (R147). -/
theorem rxInv_of_data {s t : State} {v : Byte} (hs : RxInv s) (hdata : s.rxPhase = .data)
    (hcmd : t.rxCmd = s.rxCmd) (hlen : t.rxLen = s.rxLen) (hcur : t.rxCur = s.rxCur + 1)
    (hbuf : t.rxBuf = s.rxBuf.write s.rxCur.toNat v)
    (hphase : t.rxPhase = if s.rxCur + 1 = s.rxLen then .checksum else .data) : RxInv t := by
  obtain ⟨hknown, hlegal, hbelow, -, hheld⟩ := hs
  have hlt := hbelow hdata
  have hmax : s.rxLen.toNat ≤ 254 := hlegal (.inl hdata)
  have hnext : (s.rxCur + 1).toNat = s.rxCur.toNat + 1 := by
    rw [BitVec.toNat_add]
    exact Nat.mod_eq_of_lt (show s.rxCur.toNat + 1 < 256 by omega)
  refine ⟨fun _ => hcmd ▸ hknown (.inr (.inl hdata)), fun _ => hlen ▸ hmax, fun hd => ?_, fun hc => ?_,
    fun _ i hi => ?_⟩
  · have hne : s.rxCur + 1 ≠ s.rxLen := (checksumOrData_eq_data_iff _).mp (hphase.symm.trans hd)
    have : (s.rxCur + 1).toNat ≠ s.rxLen.toNat := fun h => hne (BitVec.eq_of_toNat_eq h)
    rw [hcur, hlen]
    omega
  · rw [hcur, hlen]
    exact (checksumOrData_eq_checksum_iff _).mp (hphase.symm.trans hc)
  · rw [hcur, hnext] at hi
    rw [hbuf, read_write]
    split
    · rfl
    · exact hheld (.inl hdata) i (by omega)

/-- Every receive transition keeps the receive invariant. -/
theorem rxInv_receive {d : Bool × DecResult} {s t : State} (hs : RxInv s) (h : receive d s = .next t) : RxInv t := by
  obtain ⟨esc, r⟩ := d
  rcases receive_cases h with ⟨-, rfl⟩ | ⟨-, rfl⟩ | ⟨w, -, rfl⟩ | ⟨v, -, hbyte⟩
  · exact rxInv_of_noFrame (.inr rfl)
  · exact hs
  · exact rxInv_of_noFrame (.inl rfl)
  · rcases hbyte with ⟨-, rfl⟩ | ⟨-, hv, rfl⟩ | ⟨-, -, rfl⟩ | ⟨hlen, hv, rfl⟩ | ⟨-, -, rfl⟩ | ⟨hdata, -, rfl⟩ |
      ⟨-, p, -, rfl⟩
    · exact hs
    · simpa [RxInv, HoldsCommand, HoldsLength] using hv
    · exact rxInv_of_noFrame (.inl rfl)
    · exact rxInv_of_len (hs.1 (.inl hlen)) hv rfl rfl rfl
    · exact rxInv_of_noFrame (.inl rfl)
    · exact rxInv_of_data hs hdata rfl rfl rfl rfl rfl
    · exact rxInv_of_noFrame (.inl (onVerdict_rxPhase v p _))

/-- Every instruction keeps the receive invariant: RESET ends in IDLE, and the other rows that are no receive rows touch no receive
register. -/
theorem rxInv_exec {i : Instr} {s t : State} (hs : RxInv s) (h : exec i s = .next t) : RxInv t := by
  rcases exec_next_cases h with ⟨d, hd⟩ | hreset | ⟨cmd, len, p, hframe⟩ | hpop | ⟨ws, rfl⟩
  · exact rxInv_receive hs hd
  · cases hreset; exact rxInv_of_noFrame (.inl rfl)
  · obtain ⟨-, -, -, -, rfl⟩ := execTxFrame_next hframe; exact hs
  · obtain ⟨b, rest, -, rfl⟩ := execTxPop_next hpop; exact hs
  · exact hs

/-- Settles O56. RxInv is kept by every instruction, and reads none of the fields that idle steps, stimuli and outputs touch. -/
theorem everyStepKeepsTheReceiveInvariant : Obligations.EveryStepKeepsTheReceiveInvariant := by
  intro s t hs hstep
  exact step_keeps (P := RxInv) (fun i a b => rxInv_exec) (fun _ ha => ha) (fun _ _ ha => ha) (fun _ _ ha => ha)
    s t hs hstep

/-! ## The length of a wire frame (R76) -/

/-- Every byte that must be escaped takes one more byte on the wire. -/
theorem length_encodeBytes (bs : List Byte) : (encodeBytes bs).length = bs.length + bs.countP mustEscape := by
  induction bs with
  | nil => rfl
  | cons b bs ih =>
    have hb : (encodeByte b).length = 1 + if mustEscape b = true then 1 else 0 := by
      rcases encodeByte_cases b with ⟨rfl, h⟩ | ⟨rfl, h⟩ | ⟨h1, h2, h⟩
      · rw [h]; decide
      · rw [h]; decide
      · simp [h, mustEscape, h1, h2]
    rw [encodeBytes_cons, List.length_append, ih, hb, List.length_cons, List.countP_cons]
    omega

/-- The two bytes that must be escaped have their top bit set. -/
theorem msb_of_mustEscape {b : Byte} (h : mustEscape b = true) : b.msb = true := by
  simp only [mustEscape, Bool.or_eq_true, beq_iff_eq] at h
  rcases h with rfl | rfl <;> decide

/-- The legal lengths that must be escaped, 0xC0 and 0xDB, are at most 219. -/
theorem toNat_le_of_mustEscape {b : Byte} (h : mustEscape b = true) : b.toNat ≤ 219 := by
  simp only [mustEscape, Bool.or_eq_true, beq_iff_eq] at h
  rcases h with rfl | rfl <;> decide

/-- A known command is never escaped. -/
theorem mustEscape_of_known {b : Byte} (h : b.toNat < Config.nCmd) : mustEscape b = false := by
  cases he : mustEscape b
  · rfl
  · have := msb_of_mustEscape he
    rw [BitVec.msb_eq_decide, decide_eq_true_eq] at this
    exact absurd h (by simp only [Config.nCmd]; omega)

/-- Folding in bytes that must be escaped flips the top bit once for each. -/
theorem msb_xorFold (seed : Byte) (bs : List Byte) (h : ∀ b ∈ bs, mustEscape b = true) :
    (xorFold seed bs).msb = (seed.msb ^^ decide (bs.length % 2 = 1)) := by
  induction bs generalizing seed with
  | nil => simp [xorFold]
  | cons b bs ih =>
    obtain ⟨hb, hbs⟩ := List.forall_mem_cons.mp h
    have hfold : xorFold seed (b :: bs) = xorFold (seed ^^^ b) bs := rfl
    rw [hfold, ih _ hbs, BitVec.msb_xor, msb_of_mustEscape hb, List.length_cons]
    rcases Nat.mod_two_eq_zero_or_one bs.length with hp | hp <;> simp [Nat.add_mod, hp]

/-- The largest frame cannot have every payload byte and its checksum escaped: 254 flips of the top bit leave it 0. -/
theorem checksum_not_escaped {cmd len : Byte} {p : List Byte} (hc : cmd.toNat < Config.nCmd) (hl : len.toNat = 254)
    (hp : p.length = 254) (hall : ∀ b ∈ p, mustEscape b = true) : mustEscape (checksum cmd len p) = false := by
  have hcmd : cmd.msb = false := by
    rw [BitVec.msb_eq_decide, decide_eq_false_iff_not]
    simp only [Config.nCmd] at hc
    omega
  have hlen : len.msb = true := by rw [BitVec.msb_eq_decide, hl]; rfl
  have hfold : checksum cmd len p = xorFold (Config.chkSeed ^^^ cmd ^^^ len) p := rfl
  have hmsb : (checksum cmd len p).msb = false := by
    rw [hfold, msb_xorFold _ _ hall, BitVec.msb_xor, BitVec.msb_xor, hcmd, hlen, hp]; decide
  cases he : mustEscape (checksum cmd len p)
  · rfl
  · exact absurd (msb_of_mustEscape he) (by simp [hmsb])

/-- A wire frame is its DELIMITER, the four-part logical frame, and one byte more for each escape. -/
theorem length_wireFrame (cmd len : Byte) (p : List Byte) :
    (wireFrame cmd len p).length = 4 + p.length + [cmd, len].countP mustEscape + p.countP mustEscape +
      [checksum cmd len p].countP mustEscape := by
  simp only [wireFrame, logicalFrame, List.length_cons, length_encodeBytes, List.length_append, List.countP_append,
    List.length_nil]
  omega

/-- R76: no wire frame is longer than 512 bytes. Only length 254 could reach 513, with every payload byte and the checksum escaped. -/
theorem isWireFrame_length_le {xs : List Byte} (h : IsWireFrame xs) : xs.length ≤ 512 := by
  obtain ⟨cmd, len, p, hc, hl, hp, rfl⟩ := h
  have hmax : len.toNat ≤ 254 := hl
  have hhead : [cmd, len].countP mustEscape = if mustEscape len = true then 1 else 0 := by
    simp [List.countP_cons, mustEscape_of_known hc]
  have hlen : mustEscape len = true → len.toNat ≤ 219 := toNat_le_of_mustEscape
  have hpay : p.countP mustEscape ≤ p.length := List.countP_le_length
  have hchk : [checksum cmd len p].countP mustEscape ≤ 1 := List.countP_le_length
  have hlargest : len.toNat = 254 → p.countP mustEscape = p.length →
      [checksum cmd len p].countP mustEscape = 0 := fun h254 hall => by
    simp [checksum_not_escaped hc h254 (hp.trans h254) (List.countP_eq_length.mp hall)]
  rw [length_wireFrame, hhead]
  split
  · next he => have := hlen he; omega
  · omega

/-! ## The transmit invariant of R28 -/

/-- No receive transition touches the transmit queue (R63). -/
theorem receive_txOut {d : Bool × DecResult} {s t : State} (h : receive d s = .next t) : t.txOut = s.txOut := by
  obtain ⟨esc, r⟩ := d
  rcases receive_cases h with ⟨-, rfl⟩ | ⟨-, rfl⟩ | ⟨w, -, rfl⟩ | ⟨v, -, hbyte⟩
  case inr.inr.inr =>
    rcases hbyte with ⟨-, rfl⟩ | ⟨-, -, rfl⟩ | ⟨-, -, rfl⟩ | ⟨-, -, rfl⟩ | ⟨-, -, rfl⟩ | ⟨-, -, rfl⟩ | ⟨-, p, -, rfl⟩
    case inr.inr.inr.inr.inr.inr => exact onVerdict_txOut v p _
    all_goals rfl
  all_goals rfl

/-- The transmit invariant reads the queue only. -/
theorem txInv_of_eq {s t : State} (hs : TxInv s) (h : t.txOut = s.txOut) : TxInv t := by
  simpa only [TxInv, h] using hs

/-- Every instruction keeps the transmit invariant: TX_FRAME queues a whole frame, TX_POP leaves a tail of it. -/
theorem txInv_exec {i : Instr} {s t : State} (hs : TxInv s) (h : exec i s = .next t) : TxInv t := by
  rcases exec_next_cases h with ⟨d, hd⟩ | hreset | ⟨cmd, len, p, hframe⟩ | hpop | ⟨ws, rfl⟩
  · exact txInv_of_eq hs (receive_txOut hd)
  · cases hreset; exact .inl rfl
  · obtain ⟨hempty, hc, hl, hp, rfl⟩ := execTxFrame_next hframe
    refine .inr ⟨wireFrame cmd len p, ⟨cmd, len, p, hc, hl, hp, rfl⟩, ?_⟩
    simp [hempty]
  · obtain ⟨b, rest, hq, rfl⟩ := execTxPop_next hpop
    rcases hs with hnil | ⟨xs, hxs, htail⟩
    · simp [hnil] at hq
    · exact .inr ⟨xs, hxs, (List.suffix_cons b rest).trans (hq ▸ htail)⟩
  · exact hs

/-- A tail of one wire frame has at most 512 bytes. -/
theorem txInv_length_le {s : State} (hs : TxInv s) : s.txOut.length ≤ 512 := by
  rcases hs with hnil | ⟨xs, hxs, htail⟩
  · simp [hnil]
  · exact htail.length_le.trans (isWireFrame_length_le hxs)

/-- Settles O58. TxInv is kept by every instruction, and bounds the queue by the length of a wire frame. -/
theorem everyStepKeepsAtMostOneFrameQueued : Obligations.EveryStepKeepsAtMostOneFrameQueued := by
  intro s t hs hstep
  have ht : TxInv t := step_keeps (P := TxInv) (fun i a b => txInv_exec) (fun _ ha => ha) (fun _ _ ha => ha)
    (fun _ _ ha => ha) s t hs hstep
  exact ⟨ht, txInv_length_le ht⟩

end Sys2Proof.Proofs

/-! Family 10_state: delivery at the ports, the steps that the port levels select, and the state after reset. -/

namespace Sys2Proof.Proofs

open Sys2Proof.Machine Sys2Proof.Safety

/-! ## Delivery (R38, R148) -/

theorem onVerdict_of_ne {v : Byte} {p : List Byte} {s : State} (hv : v ≠ checksum s.rxCmd s.rxLen p) :
    onVerdict v p s = s.raise .badChecksum v := if_pos hv

theorem onVerdict_of_size_ne {v : Byte} {p : List Byte} {s : State} (hv : v = checksum s.rxCmd s.rxLen p)
    (hsize : sizeOk s.cmdCode s.rxCmd s.rxLen = false) : onVerdict v p s = s.raise .sizeMismatch s.rxLen := by
  simp [onVerdict, hv, hsize]

theorem onVerdict_of_ok {v : Byte} {p : List Byte} {s : State} (hv : v = checksum s.rxCmd s.rxLen p)
    (hsize : sizeOk s.cmdCode s.rxCmd s.rxLen = true) :
    onVerdict v p s = ({ s with rxPhase := .idle } : State).emitMsg s.rxCmd s.rxLen p := by
  simp [onVerdict, hv, hsize]

/-- A message comes only from the last of the three verdicts on a CHECKSUM byte, with the payload read from the buffer. -/
theorem receive_msg_eq_some {d : Bool × DecResult} {s t : State} {m : Message} (h : receive d s = .next t)
    (hm : t.out.msg = some m) :
    s.rxPhase = .checksum ∧ ∃ p, bufReadFrom s.rxBuf 0 s.rxLen.toNat = .ok p ∧ m = ⟨s.rxCmd, s.rxLen, p⟩ ∧
      t = ({ received d.1 s with rxPhase := .idle } : State).emitMsg s.rxCmd s.rxLen p := by
  obtain ⟨esc, r⟩ := d
  rcases receive_cases h with ⟨-, rfl⟩ | ⟨-, rfl⟩ | ⟨w, -, rfl⟩ | ⟨v, -, hbyte⟩
  case inr.inr.inr =>
    rcases hbyte with ⟨-, rfl⟩ | ⟨-, -, rfl⟩ | ⟨-, -, rfl⟩ | ⟨-, -, rfl⟩ | ⟨-, -, rfl⟩ | ⟨-, -, rfl⟩ | ⟨hphase, p, hp, rfl⟩
    case inr.inr.inr.inr.inr.inr =>
      rcases onVerdict_cases v p (received esc s) with ⟨-, hv⟩ | ⟨-, -, hv⟩ | ⟨-, -, hv⟩
      · rw [hv] at hm; cases hm
      · rw [hv] at hm; cases hm
      · rw [hv] at hm ⊢
        cases hm
        exact ⟨hphase, p, hp, rfl, rfl⟩
    all_goals cases hm
  all_goals cases hm

/-- `msg_rd_data` shows the buffer's byte below `msg_len` in the delivering transition (R38, R52). -/
theorem msgRdData_of_read {t : State} {m : Message} {a b : Byte} (hm : t.out.msg = some m)
    (ha : a.toNat < m.len.toNat) (hb : t.rxBuf.read a.toNat = some b) : msgRdData t a = b := by
  simp [msgRdData, hm, ha, hb]

/-- Settles O44. The delivering state and its payload come from `receive_msg_eq_some`; what the buffer held is what the payload holds. -/
theorem deliveredMessageIsReadAtThePorts : Obligations.DeliveredMessageIsReadAtThePorts := by
  intro s t w m hexec hmsg
  obtain ⟨hphase, p, hp, rfl, rfl⟩ := receive_msg_eq_some (exec_rxByte w s ▸ hexec) hmsg
  obtain ⟨hlength, hread⟩ := (bufReadFrom_ok_iff _ _ _ _).mp hp
  refine ⟨hphase, rfl, rfl, rfl, hlength, rfl, rfl, rfl, rfl, fun a ha => ?_⟩
  have hbyte : s.rxBuf.read a.toNat = p[a.toNat]? := by simpa using (hread a.toNat ha).2
  have hget : p[a.toNat]? = some p[a.toNat] := List.getElem?_eq_getElem (hlength ▸ ha)
  exact hget.trans (congrArg some (msgRdData_of_read hmsg ha (hbyte.trans hget)).symm)

/-! ## No wire byte stops the block (R30, R212) -/

/-- Where the receive invariant holds, every receive transition reaches a next state: DATA stores below 254, and CHECKSUM reads only
bytes that were written. -/
theorem receive_goesOn {s : State} (hs : RxInv s) (d : Bool × DecResult) : GoesOn (receive d s) := by
  obtain ⟨-, hlegal, hbelow, hend, hheld⟩ := hs
  obtain ⟨esc, r⟩ := d
  cases r with
  | sof => exact ⟨_, receive_sof esc s⟩
  | none => exact ⟨_, receive_none esc s⟩
  | badEsc w => exact ⟨_, receive_badEsc esc w s⟩
  | byte v =>
    cases hphase : s.rxPhase with
    | idle => exact ⟨_, receive_byte_idle esc v hphase⟩
    | command => exact ⟨_, receive_byte_command esc v hphase⟩
    | len => exact ⟨_, receive_byte_len esc v hphase⟩
    | data =>
      exact ⟨_, receive_byte_data esc v hphase (Nat.lt_of_lt_of_le (hbelow hphase) (hlegal (.inl hphase)))⟩
    | checksum =>
      obtain ⟨p, hp⟩ := bufReadFrom_ok_of_isSome s.rxBuf 0 s.rxLen.toNat (by simpa using hlegal (.inr hphase))
        (fun j hj => by simpa using hheld (.inr hphase) j (hend hphase ▸ hj))
      exact ⟨_, receive_byte_checksum esc v hphase hp⟩

/-- Settles O59. RX_BYTE is the receive transition on the decoder's answer. -/
theorem noWireByteStopsTheBlock : Obligations.NoWireByteStopsTheBlock := by
  intro s w hs
  rw [exec_rxByte]
  exact receive_goesOn hs _

/-! ## The operations that the port levels select (R87, R171) -/

/-- The transmit operation that a step with these port inputs performs, if any: an acceptable request into an empty queue, or the wire
taking a byte (R37, R40, R171). -/
def acceptedTransmit (p : PortInputs) (s : State) : List Instr :=
  if s.txOut = [] then
    if p.txValid = true ∧ p.txCmd.toNat < Config.nCmd ∧ p.txLen.toNat ≤ Config.maxLen then
      [.txFrame p.txCmd p.txLen (p.txPayload.take p.txLen.toNat)]
    else []
  else if p.wireReady = true then [.txPop] else []

/-- Without `rst` a step performs RX_BYTE of a presented byte and the accepted transmit operation, in this order. -/
theorem selectedOps_of_not_rst {p : PortInputs} (s : State) (hrst : p.rst = false) :
    selectedOps p s = (if p.rxValid = true then [.rxByte p.rxByte] else []) ++ acceptedTransmit p s := by
  have hrx : (if p.rxValid = true then [Instr.rxByte p.rxByte] else []).filter (fun i => !isPortRefused i) =
      if p.rxValid = true then [.rxByte p.rxByte] else [] := by
    split <;> rfl
  simp only [selectedOps, decodePorts, portLevels, hrst, Bool.false_eq_true, if_false, List.filter_append, hrx]
  congr 1
  cases hq : s.txOut with
  | nil =>
    by_cases hv : p.txValid = true
    · simp only [acceptedTransmit, hq, txReady, hv]
      by_cases hc : p.txCmd.toNat < Config.nCmd <;> by_cases hl : p.txLen.toNat ≤ Config.maxLen <;>
        simp [isPortRefused, isBadRequest, isKnownCommand, isLegalLength, hc, hl]
    · simp [acceptedTransmit, hq, wireValid, hv]
  | cons b rest =>
    by_cases hw : p.wireReady = true <;> simp [acceptedTransmit, hq, txReady, wireValid, isPortRefused, hw]

/-- A step with port inputs in front performs the operations they select. -/
theorem step_ports {s : State} {p : PortInputs} {rest : List Stimulus} (hstim : s.stimuli = .ports p :: rest)
    (hrst : p.rst = false) :
    step s = performTogether ((if p.rxValid = true then [.rxByte p.rxByte] else []) ++ acceptedTransmit p s)
      { s with stimuli := rest } := by
  rw [step, runNext, hstim]
  exact congrArg (performTogether · _) (selectedOps_of_not_rst { s with stimuli := rest } hrst)

/-- No transmit operation beside a request that is absent, must wait or is refused, and a wire that takes nothing or has nothing to take. -/
theorem acceptedTransmit_eq_nil {p : PortInputs} {s : State}
    (htx : p.txValid = false ∨ s.txOut ≠ [] ∨ 5 ≤ p.txCmd.toNat ∨ 254 < p.txLen.toNat)
    (hwire : p.wireReady = false ∨ s.txOut = []) : acceptedTransmit p s = [] := by
  unfold acceptedTransmit
  split
  · next hq =>
    rw [if_neg]
    rintro ⟨hv, hc, hl⟩
    simp only [Config.nCmd, Config.maxLen] at hc hl
    rcases htx with h | h | h | h
    · simp [hv] at h
    · exact h hq
    · omega
    · omega
  · next hq => simp [hwire.resolve_right hq]

/-- Settles O7. Each clause fixes the two sides of `step_ports`, and a step with one operation is that operation. -/
theorem stepPerformsTheSelectedOperation : Obligations.StepPerformsTheSelectedOperation := by
  intro s p rest hstim hrst
  rw [step_ports hstim hrst]
  refine ⟨fun hrx htx hwire => ?_, fun hrx hv hq hc hl => ?_, fun hrx hw hq => ?_⟩
  · rw [if_pos hrx, acceptedTransmit_eq_nil htx hwire]
    rfl
  · rw [if_neg (by simp [hrx]), acceptedTransmit, if_pos hq, if_pos ⟨hv, hc, hl⟩]
    rfl
  · rw [if_neg (by simp [hrx]), acceptedTransmit, if_neg hq, if_pos hw]
    rfl

/-! ## Idle steps (R29, R241) -/

/-- With nothing presented a step is `begin` alone. -/
theorem step_of_stimuli_nil {s : State} (h : s.stimuli = []) : step s = .next s.begin := by
  rw [step, runNext, h]

/-- Settles O10. `begin` clears the outputs and numbers the transition. -/
theorem idleStepKeepsAllState : Obligations.IdleStepKeepsAllState :=
  fun _ => step_of_stimuli_nil

/-! ## Gaps between wire bytes (R29, R151, R241) -/

/-- `s` with other values of what the host presents, the last outputs and the transition number: the same state of the block. -/
def withSurroundings (s : State) (x : List Stimulus) (o : Outputs) (k : Nat) : State :=
  { s with stimuli := x, out := o, tick := k }

/-- The verdict on a checksum byte reads none of the three surrounding fields. -/
theorem onVerdict_withSurroundings (v : Byte) (p : List Byte) (esc : Bool) (s : State) (x : List Stimulus) (o : Outputs)
    (k : Nat) :
    onVerdict v p (received esc (withSurroundings s x o k)) =
      withSurroundings (onVerdict v p (received esc s)) x (onVerdict v p (received esc s)).out (k + 1) := by
  rcases onVerdict_cases v p (received esc s) with ⟨hv, h⟩ | ⟨hv, hsize, h⟩ | ⟨hv, hsize, h⟩
  · rw [h]; exact onVerdict_of_ne hv
  · rw [h]; exact onVerdict_of_size_ne hv hsize
  · rw [h]; exact onVerdict_of_ok hv hsize

/-- A receive transition reads none of the three surrounding fields. Its outputs are its own, and the stimuli stay. -/
theorem receive_withSurroundings {d : Bool × DecResult} {s t : State} (h : receive d s = .next t)
    (x : List Stimulus) (o : Outputs) (k : Nat) :
    receive d (withSurroundings s x o k) = .next (withSurroundings t x t.out (k + 1)) := by
  obtain ⟨esc, r⟩ := d
  rcases receive_cases h with ⟨rfl, rfl⟩ | ⟨rfl, rfl⟩ | ⟨w, rfl, rfl⟩ | ⟨v, rfl, hbyte⟩
  case inr.inr.inr =>
    have hp : (withSurroundings s x o k).rxPhase = s.rxPhase := rfl
    rcases hbyte with ⟨hphase, rfl⟩ | ⟨hphase, hv, rfl⟩ | ⟨hphase, hv, rfl⟩ | ⟨hphase, hv, rfl⟩ | ⟨hphase, hv, rfl⟩ |
      ⟨hphase, hcur, rfl⟩ | ⟨hphase, p, hread, rfl⟩
    · exact receive_byte_idle esc v hphase
    · rw [receive_byte_command esc v (hp.trans hphase), onCommand, isKnownCommand, decide_eq_true hv]; rfl
    · rw [receive_byte_command esc v (hp.trans hphase), onCommand, isKnownCommand,
        decide_eq_false (Nat.not_lt.mpr hv)]; rfl
    · rw [receive_byte_len esc v (hp.trans hphase), onLen, isLegalLength, decide_eq_true hv]; rfl
    · rw [receive_byte_len esc v (hp.trans hphase), onLen, isLegalLength, decide_eq_false (Nat.not_le.mpr hv)]; rfl
    · exact receive_byte_data esc v hphase hcur
    · rw [receive_byte_checksum esc v (hp.trans hphase) hread, onVerdict_withSurroundings]
  all_goals rfl

/-- A step on port inputs that present at most a wire byte: RX_BYTE of that byte. -/
theorem step_receivesOnly_byte {s : State} {p : PortInputs} {rest : List Stimulus}
    (hstim : s.stimuli = .ports p :: rest) (hp : receivesOnly p = true) (hrx : p.rxValid = true) :
    step s = exec (.rxByte p.rxByte) { s with stimuli := rest } := by
  simp only [receivesOnly, Bool.and_eq_true, Bool.not_eq_true'] at hp
  obtain ⟨⟨hrst, htx⟩, hwire⟩ := hp
  exact (stepPerformsTheSelectedOperation s p rest hstim hrst).1 hrx (.inl htx) (.inl hwire)

/-- A step on port inputs that present at most a wire byte, and no byte: idle. -/
theorem step_receivesOnly_idle {s : State} {p : PortInputs} {rest : List Stimulus}
    (hstim : s.stimuli = .ports p :: rest) (hp : receivesOnly p = true) (hrx : p.rxValid = false) :
    step s = .next ({ s with stimuli := rest } : State).begin := by
  simp only [receivesOnly, Bool.and_eq_true, Bool.not_eq_true'] at hp
  obtain ⟨⟨hrst, htx⟩, hwire⟩ := hp
  rw [step_ports hstim hrst, if_neg (by simp [hrx]), acceptedTransmit_eq_nil (.inl htx) (.inl hwire)]
  rfl

/-- A run of steps that goes on is a first step and the rest of the run. -/
theorem runSteps_succ {s t u : State} {n : Nat} {os : List Output} (hstep : step s = .next t)
    (hrun : runSteps n t = .next (u, os)) : runSteps (n + 1) s = .next (u, outputsOf t.out ++ os) := by
  simp [runSteps, hstep, hrun]

/-- Idle steps put out nothing, and only the last outputs and the transition number change. -/
theorem runSteps_of_stimuli_nil {s : State} (n : Nat) (h : s.stimuli = []) :
    ∃ o k, runSteps n s = .next (withSurroundings s [] o k, []) := by
  induction n generalizing s with
  | zero => exact ⟨s.out, s.tick, by rw [runSteps, withSurroundings, ← h]⟩
  | succ n ih =>
    obtain ⟨o, k, hrun⟩ := ih (s := s.begin) h
    exact ⟨o, k, runSteps_succ (step_of_stimuli_nil h) hrun⟩

/-- Steps that present at most wire bytes run along with the bytes alone, from the same state of the block whatever surrounds it: the same
outputs, and the same state of the block at the end. -/
theorem runSteps_receivesOnly (n : Nat) (ps : List PortInputs) (hps : ∀ p ∈ ps, receivesOnly p = true) {s : State}
    (hs : RxInv s) (o : Outputs) (k : Nat) :
    ∃ t os o' k', runBytes (presentedBytes ps) s = .next (t, os) ∧
      runSteps (ps.length + n) (withSurroundings s (ps.map Stimulus.ports) o k) =
        .next (withSurroundings t [] o' k', os) := by
  induction ps generalizing s o k with
  | nil =>
    obtain ⟨o', k', hrun⟩ := runSteps_of_stimuli_nil (s := withSurroundings s [] o k) n rfl
    exact ⟨s, [], o', k', rfl, by rw [List.length_nil, Nat.zero_add]; exact hrun⟩
  | cons p ps ih =>
    obtain ⟨hp, hps⟩ := List.forall_mem_cons.mp hps
    have hstim : (withSurroundings s ((p :: ps).map Stimulus.ports) o k).stimuli =
        .ports p :: ps.map Stimulus.ports := rfl
    rw [List.length_cons, Nat.add_right_comm]
    cases hrx : p.rxValid with
    | false =>
      obtain ⟨t, os, o', k', hbytes, hsteps⟩ := ih hps hs Outputs.none (k + 1)
      refine ⟨t, os, o', k', ?_, runSteps_succ (step_receivesOnly_idle hstim hp hrx) hsteps⟩
      simpa [presentedBytes, hrx] using hbytes
    | true =>
      obtain ⟨a, ha⟩ := receive_goesOn hs (decodeByte s.escPending p.rxByte)
      obtain ⟨t, os, o', k', hbytes, hsteps⟩ := ih hps (rxInv_receive hs ha) a.out (k + 1)
      refine ⟨t, outputsOf a.out ++ os, o', k', ?_, ?_⟩
      · have hcons : presentedBytes (p :: ps) = p.rxByte :: presentedBytes ps := by simp [presentedBytes, hrx]
        rw [hcons]
        exact runOps_cons_eq_next.mpr ⟨a, os, ha, hbytes, rfl⟩
      · have hstep : step (withSurroundings s ((p :: ps).map Stimulus.ports) o k) =
            .next (withSurroundings a (ps.map Stimulus.ports) a.out (k + 1)) :=
          (step_receivesOnly_byte hstim hp hrx).trans (receive_withSurroundings ha (ps.map Stimulus.ports) o k)
        exact (runSteps_succ hstep hsteps :)

/-- Settles O54. The step run starts in the same state of the block as the byte run, so both end in one. -/
theorem gapsBetweenBytesDoNotMatter : Obligations.GapsBetweenBytesDoNotMatter := by
  intro s ps n hs hps
  obtain ⟨t, os, o, k, hbytes, hsteps⟩ := runSteps_receivesOnly n ps hps hs s.out s.tick
  exact ⟨t, withSurroundings t [] o k, os, hbytes, hsteps, rfl⟩

/-! ## The state after reset and the output lines -/

/-- Settles O11. Every conjunct is a field of `State.resetWith`, or a line that follows from the empty queue and no outputs. -/
theorem resetStateIsAsSpecified : Obligations.ResetStateIsAsSpecified :=
  ⟨rfl, fun _ => ⟨rfl, rfl, rfl, rfl, rfl, rfl, rfl, rfl⟩⟩

/-- Settles O55. Reset is in IDLE, with no byte of the buffer written and nothing queued. -/
theorem invariantsHoldAtReset : Obligations.InvariantsHoldAtReset :=
  fun _ => ⟨rxInv_of_noFrame (.inl rfl), wf_nil, .inl rfl⟩

/-- With an event the lines show its code and its info byte (R39). -/
theorem event_lines {s : State} {e : Event} (h : s.out.ev = some e) :
    evCode s = eventCode e.code ∧ evInfo s = e.info := by
  simp [evCode, evInfo, h]

/-- The codes of R200 are 1 to 5. -/
theorem eventCode_ne (c : EventCode) : eventCode c ≠ 0 ∧ eventCode c ≠ 6 ∧ eventCode c ≠ 7 := by
  cases c <;> decide

/-- Settles O46. The valid and ready lines test the queue and the outputs; `event_lines` gives the rest. -/
theorem portLinesFollowTheState : Obligations.PortLinesFollowTheState := by
  intro s
  refine ⟨by simp [txReady], by simp [wireValid], fun b rest hq => by simp [wireByte, hq],
    by simp [evValid, Option.isSome_iff_ne_none], by simp [msgValid, Option.isSome_iff_ne_none],
    fun _ h => event_lines h, fun _ h => event_lines h, fun _ h => event_lines h, fun _ h => event_lines h,
    fun _ h => event_lines h, fun hv => ?_⟩
  obtain ⟨e, he⟩ := Option.isSome_iff_exists.mp hv
  rw [(event_lines he).1]
  exact eventCode_ne e.code

end Sys2Proof.Proofs

/-! Family 20_memory: what the receive and the transmit side write, that neither disturbs the other (R63), and the payload buffer's form. -/

namespace Sys2Proof.Proofs

open Sys2Proof.Machine Sys2Proof.Safety

/-! ## The registers and the buffer that a receive transition writes (R145 to R147) -/

/-- A receive transition keeps the four frame fields, or writes those that the rule of its phase names: COMMAND writes `rx_cmd`, LEN
writes `rx_len` and `rx_cur`, DATA writes `rx_cur` and stores one byte at the old `rx_cur`. -/
theorem receive_writes {d : Bool × DecResult} {s t : State} (h : receive d s = .next t) :
    (t.rxCmd = s.rxCmd ∧ t.rxLen = s.rxLen ∧ t.rxCur = s.rxCur ∧ t.rxBuf = s.rxBuf) ∨
    (s.rxPhase = .command ∧ t.rxLen = s.rxLen ∧ t.rxCur = s.rxCur ∧ t.rxBuf = s.rxBuf) ∨
    (s.rxPhase = .len ∧ t.rxCmd = s.rxCmd ∧ t.rxBuf = s.rxBuf) ∨
    (s.rxPhase = .data ∧ s.rxCur.toNat < Config.maxLen ∧ t.rxCmd = s.rxCmd ∧ t.rxLen = s.rxLen ∧
      ∃ v, t.rxBuf = s.rxBuf.write s.rxCur.toNat v) := by
  obtain ⟨esc, r⟩ := d
  rcases receive_cases h with ⟨-, rfl⟩ | ⟨-, rfl⟩ | ⟨w, -, rfl⟩ | ⟨v, -, hbyte⟩
  case inr.inr.inr =>
    rcases hbyte with ⟨-, rfl⟩ | ⟨hphase, -, rfl⟩ | ⟨-, -, rfl⟩ | ⟨hphase, -, rfl⟩ | ⟨-, -, rfl⟩ | ⟨hphase, hcur, rfl⟩ |
      ⟨-, p, -, rfl⟩
    · exact .inl ⟨rfl, rfl, rfl, rfl⟩
    · exact .inr (.inl ⟨hphase, rfl, rfl, rfl⟩)
    · exact .inl ⟨rfl, rfl, rfl, rfl⟩
    · exact .inr (.inr (.inl ⟨hphase, rfl, rfl⟩))
    · exact .inl ⟨rfl, rfl, rfl, rfl⟩
    · exact .inr (.inr (.inr ⟨hphase, hcur, rfl, rfl, v, rfl⟩))
    · exact .inl ⟨onVerdict_rxCmd v p _, onVerdict_rxLen v p _, onVerdict_rxCur v p _, onVerdict_rxBuf v p _⟩
  all_goals exact .inl ⟨rfl, rfl, rfl, rfl⟩

/-! ## The buffer's canonical form (R50, R58) -/

/-- Every instruction keeps the buffer canonical: a receive transition stores below 254 at most, RESET leaves no byte with a value. -/
theorem bufInv_exec {i : Instr} {s t : State} (hs : BufInv s) (h : exec i s = .next t) : BufInv t := by
  rcases exec_next_cases h with ⟨d, hd⟩ | hreset | ⟨cmd, len, p, hframe⟩ | hpop | ⟨ws, rfl⟩
  · rcases receive_writes hd with ⟨-, -, -, hbuf⟩ | ⟨-, -, -, hbuf⟩ | ⟨-, -, hbuf⟩ | ⟨-, hcur, -, -, v, hbuf⟩
    case inr.inr.inr => exact (congrArg Memory.wf hbuf).trans (wf_write _ _ v hs hcur)
    all_goals exact (congrArg Memory.wf hbuf).trans hs
  · cases hreset; exact wf_nil
  · obtain ⟨-, -, -, -, rfl⟩ := execTxFrame_next hframe; exact hs
  · obtain ⟨b, rest, -, rfl⟩ := execTxPop_next hpop; exact hs
  · exact hs

/-- Settles O57. BufInv is kept by every instruction, and reads the buffer only. -/
theorem everyStepKeepsTheBufferCanonical : Obligations.EveryStepKeepsTheBufferCanonical := by
  intro s t hs hstep
  exact step_keeps (P := BufInv) (fun _ _ _ => bufInv_exec) (fun _ ha => ha) (fun _ _ ha => ha) (fun _ _ ha => ha)
    s t hs hstep

/-! ## The frames of the two sides (R63) -/

/-- A verdict is a message or an event: it adds nothing to the wire and encoder outputs (R148). -/
theorem onVerdict_out_wire_enc (v : Byte) (p : List Byte) (s : State) :
    (onVerdict v p s).out.wire = s.out.wire ∧ (onVerdict v p s).out.enc = s.out.enc := by
  rcases onVerdict_cases v p s with ⟨_, h⟩ | ⟨_, _, h⟩ | ⟨_, _, h⟩ <;> simp [h]

/-- A receive transition is numbered, leaves the stimuli and the pairing alone, and puts nothing on the wire. -/
theorem receive_keeps {d : Bool × DecResult} {s t : State} (h : receive d s = .next t) :
    t.stimuli = s.stimuli ∧ t.cmdCode = s.cmdCode ∧ t.tick = s.tick + 1 ∧ t.out.wire = none ∧ t.out.enc = none := by
  obtain ⟨esc, r⟩ := d
  rcases receive_cases h with ⟨-, rfl⟩ | ⟨-, rfl⟩ | ⟨w, -, rfl⟩ | ⟨v, -, hbyte⟩
  case inr.inr.inr =>
    rcases hbyte with ⟨-, rfl⟩ | ⟨-, -, rfl⟩ | ⟨-, -, rfl⟩ | ⟨-, -, rfl⟩ | ⟨-, -, rfl⟩ | ⟨-, -, rfl⟩ | ⟨-, p, -, rfl⟩
    case inr.inr.inr.inr.inr.inr =>
      exact ⟨onVerdict_stimuli v p _, onVerdict_cmdCode v p _, onVerdict_tick v p _, onVerdict_out_wire_enc v p _⟩
    all_goals exact ⟨rfl, rfl, rfl, rfl, rfl⟩
  all_goals exact ⟨rfl, rfl, rfl, rfl, rfl⟩

/-- Settles O37. Every receive row is a receive transition; `receive_writes` says in which phase each register is written, and a store
leaves the other bytes alone. -/
theorem receiveRowsFrame : Obligations.ReceiveRowsFrame := by
  intro i s t hi h
  obtain ⟨d, hd⟩ := exec_receiveRow_next hi h
  obtain ⟨hstim, hcode, -, hwire, henc⟩ := receive_keeps hd
  refine ⟨receive_txOut hd, hstim, hcode, hwire, henc, ?_⟩
  rcases receive_writes hd with ⟨hcmd, hlen, hcur, hbuf⟩ | ⟨hphase, hlen, hcur, hbuf⟩ | ⟨hphase, hcmd, hbuf⟩ |
    ⟨hphase, -, hcmd, hlen, v, hbuf⟩
  · simp [hcmd, hlen, hcur, hbuf]
  · simp [hphase, hlen, hcur, hbuf]
  · simp [hphase, hcmd, hbuf]
  · simp only [hphase, hcmd, hlen, hbuf]
    simpa using fun a ha => read_write_other s.rxBuf v ha

/-- Settles O38. TX_FRAME changes the queue only, TX_POP the queue and the wire output, an encoder row its own output. -/
theorem transmitAndEncoderRowsFrame : Obligations.TransmitAndEncoderRowsFrame := by
  intro i s t hi hreset h
  cases i with
  | txFrame cmd len p => obtain ⟨-, -, -, -, rfl⟩ := execTxFrame_next h; simp [isTransmitRow, Outputs.none]
  | txPop => obtain ⟨b, rest, -, rfl⟩ := execTxPop_next h; simp [isTransmitRow, Outputs.none]
  | encDelim | encEsc => cases h; simp [Outputs.none]
  | encLit b => obtain ⟨-, rfl⟩ := execEncLit_next h; simp [Outputs.none]
  | reset => exact absurd rfl hreset
  | _ => cases hi

/-! ## The two sides in either order (R63) -/

/-- `s` with another transmit queue. -/
def withQueue (s : State) (q : List Byte) : State := { s with txOut := q }

/-- `f` on the next state, if there is one. -/
def mapNext (f : State → State) : Result → Result
  | .next t => .next (f t)
  | .fault r => .fault r
  | .refused r => .refused r

section
variable (v : Byte) (s : State) (q : List Byte)

/-! No rule of the reassembler reads or writes the queue: each commutes with `withQueue`. -/

theorem onCommand_withQueue : onCommand v (withQueue s q) = withQueue (onCommand v s) q := by
  unfold onCommand
  split <;> rfl

theorem onLen_withQueue : onLen v (withQueue s q) = withQueue (onLen v s) q := by
  unfold onLen
  split <;> rfl

theorem onData_withQueue : onData v (withQueue s q) = mapNext (withQueue · q) (onData v s) := by
  have hcur : (withQueue s q).rxCur = s.rxCur := rfl
  simp only [onData, hcur]
  split <;> rfl

theorem onVerdict_withQueue (p : List Byte) : onVerdict v p (withQueue s q) = withQueue (onVerdict v p s) q := by
  rcases onVerdict_cases v p s with ⟨hv, h⟩ | ⟨hv, hsize, h⟩ | ⟨hv, hsize, h⟩
  · rw [h]; exact onVerdict_of_ne hv
  · rw [h]; exact onVerdict_of_size_ne hv hsize
  · rw [h]; exact onVerdict_of_ok hv hsize

theorem onChecksum_withQueue : onChecksum v (withQueue s q) = mapNext (withQueue · q) (onChecksum v s) := by
  have hread : bufReadFrom (withQueue s q).rxBuf 0 (withQueue s q).rxLen.toNat =
      bufReadFrom s.rxBuf 0 s.rxLen.toNat := rfl
  cases h : bufReadFrom s.rxBuf 0 s.rxLen.toNat with
  | error e => simp [onChecksum, hread, h, mapNext]
  | ok p => simp [onChecksum, hread, h, mapNext, onVerdict_withQueue]

theorem onByte_withQueue : onByte v (withQueue s q) = mapNext (withQueue · q) (onByte v s) := by
  have hp : (withQueue s q).rxPhase = s.rxPhase := rfl
  cases h : s.rxPhase with
  | idle => simp [onByte, hp, h, mapNext]
  | command => simp [onByte, hp, h, mapNext, onCommand_withQueue]
  | len => simp [onByte, hp, h, mapNext, onLen_withQueue]
  | data => simp [onByte, hp, h, onData_withQueue]
  | checksum => simp [onByte, hp, h, onChecksum_withQueue]

/-- A receive transition is the same beside any transmit queue. -/
theorem receive_withQueue (d : Bool × DecResult) :
    receive d (withQueue s q) = mapNext (withQueue · q) (receive d s) := by
  obtain ⟨esc, r⟩ := d
  cases r with
  | byte v => exact onByte_withQueue v (received esc s) q
  | sof | none | badEsc _ => rfl

end

/-! What the transmit operations do where they have a step, forward (R170, R172). -/

theorem execTxFrame_of_accepted {cmd len : Byte} {p : List Byte} {s : State} (hq : s.txOut = [])
    (hc : cmd.toNat < Config.nCmd) (hl : len.toNat ≤ Config.maxLen) (hp : p.length = len.toNat) :
    execTxFrame cmd len p s = .next (s.begin.pushWire (wireFrame cmd len p)) := by
  simp [execTxFrame, hq, isBadRequest, isKnownCommand, isLegalLength, hc, hl, hp]

theorem execTxPop_of_cons {s : State} {b : Byte} {rest : List Byte} (hq : s.txOut = b :: rest) :
    execTxPop s = .next { s.begin with txOut := rest, out := { Outputs.none with wire := some b } } := by
  simp [execTxPop, hq]

/-- A transmit row is neither a receive row nor RESET. -/
theorem not_receiveRow_of_transmitRow {i : Instr} (hi : isTransmitRow i = true) : isReceiveRow i = false ∧ i ≠ .reset := by
  cases i with
  | txFrame _ _ _ | txPop => exact ⟨rfl, nofun⟩
  | _ => cases hi

/-- What a transmit operation does depends on the queue only: from any state with that queue it leaves the same queue and puts out
the same, and changes nothing else but the transition number (R170, R172). -/
theorem exec_transmitRow_of_txOut_eq {i : Instr} {s c a : State} (hi : isTransmitRow i = true)
    (h : exec i s = .next c) (hq : a.txOut = s.txOut) :
    exec i a = .next { a with txOut := c.txOut, tick := a.tick + 1, out := c.out } := by
  cases i with
  | txFrame cmd len p =>
    obtain ⟨hempty, hc, hl, hp, rfl⟩ := execTxFrame_next h
    refine (execTxFrame_of_accepted (hq.trans hempty) hc hl hp).trans ?_
    simp [State.pushWire, State.begin, hq]
  | txPop =>
    obtain ⟨b, rest, hs, rfl⟩ := execTxPop_next h
    exact execTxPop_of_cons (hq.trans hs)
  | _ => cases hi

/-- Two operations of which one puts out no wire byte and no encoder answer and the other no message and no event: their outputs are
the same together in either order. -/
theorem merge_comm_of_disjoint {a b : Outputs} (hwire : a.wire = none) (henc : a.enc = none) (hmsg : b.msg = none)
    (hev : b.ev = none) : a.merge b = b.merge a := by
  simp [Outputs.merge, hwire, henc, hmsg, hev]

/-- Settles O39. The transmit operation does on the state after RX_BYTE what it did before it, since RX_BYTE keeps the queue; RX_BYTE
does on the state after the transmit operation what it did before it, since only the queue, the outputs and the transition number
differ there. -/
theorem receiveAndTransmitCommute : Obligations.ReceiveAndTransmitCommute := by
  intro s a b c d w i hi hrx htxAfter htx hrxAfter
  obtain ⟨hstim, -, htick, hwire, henc⟩ := receive_keeps hrx
  obtain ⟨hreceive, hreset⟩ := not_receiveRow_of_transmitRow hi
  obtain ⟨-, -, -, -, -, -, -, -, hmsg, hev, -⟩ := transmitAndEncoderRowsFrame i s c hreceive hreset htx
  have hb : b = { a with txOut := c.txOut, tick := a.tick + 1, out := c.out } :=
    Host.Outcome.next.inj (htxAfter.symm.trans (exec_transmitRow_of_txOut_eq hi htx (receive_txOut hrx)))
  have hc : c = withSurroundings (withQueue s c.txOut) s.stimuli c.out (s.tick + 1) :=
    Host.Outcome.next.inj (htx.symm.trans (exec_transmitRow_of_txOut_eq hi htx rfl))
  have hd : d = withSurroundings (withQueue a c.txOut) s.stimuli a.out (s.tick + 1 + 1) := by
    have hbeside : receive (decodeByte s.escPending w) (withQueue s c.txOut) = .next (withQueue a c.txOut) :=
      (receive_withQueue s c.txOut _).trans (congrArg (mapNext (withQueue · c.txOut)) hrx)
    rw [hc] at hrxAfter
    exact Host.Outcome.next.inj (hrxAfter.symm.trans (receive_withSurroundings hbeside _ _ _))
  rw [hb, hd, merge_comm_of_disjoint hwire henc hmsg hev, htick, ← hstim]
  rfl

/-! ## Both sides in one step (R63, R87) -/

/-- Two operations of one step, one after the other, with the outputs of both. -/
theorem performTogether_pair {i j : Instr} {s a b : State} (hi : exec i s = .next a) (hj : exec j a = .next b) :
    performTogether [i, j] s = .next { b with out := a.out.merge b.out } := by
  simp [performTogether, hi, hj]

/-- Settles O8. The port levels select RX_BYTE and the transmit operation, and `performTogether_pair` performs the two. -/
theorem stepPerformsBothSides : Obligations.StepPerformsBothSides := by
  intro s a b p rest i hstim hrst hrx hi hexec hexec'
  have haccepted : acceptedTransmit p s = [i] := by
    rcases hi with ⟨hv, hq, hc, hl, rfl⟩ | ⟨hw, hq, rfl⟩
    · exact (if_pos hq).trans (if_pos ⟨hv, hc, hl⟩)
    · exact (if_neg hq).trans (if_pos hw)
  rw [step_ports hstim hrst, if_pos hrx, haccepted]
  exact performTogether_pair hexec hexec'

/-! ## No port inputs stop the block (R59, R212) -/

/-- The accepted transmit operation is none, or one that reaches a next state from every state with this queue. -/
theorem acceptedTransmit_goesOn {p : PortInputs} (hp : DrivesPayload p) (s : State) :
    acceptedTransmit p s = [] ∨
    ∃ i, acceptedTransmit p s = [i] ∧ ∀ a : State, a.txOut = s.txOut → GoesOn (exec i a) := by
  unfold acceptedTransmit
  split
  · next hq =>
    split
    · next haccept =>
      obtain ⟨hv, hc, hl⟩ := haccept
      exact .inr ⟨_, rfl, fun a ha => ⟨_, execTxFrame_of_accepted (ha.trans hq) hc hl
        (List.length_take_of_le (hp hv hl))⟩⟩
    · exact .inl rfl
  · next hq =>
    split
    · obtain ⟨b, rest, hcons⟩ := List.exists_cons_of_ne_nil hq
      exact .inr ⟨_, rfl, fun a ha => ⟨_, execTxPop_of_cons (ha.trans hcons)⟩⟩
    · exact .inl rfl

/-- With `rst` = 1 the port levels select RESET alone (R232). -/
theorem selectedOps_of_rst {p : PortInputs} (s : State) (hrst : p.rst = true) : selectedOps p s = [.reset] := by
  simp [selectedOps, decodePorts, portLevels, hrst, isPortRefused]

theorem step_ports_rst {s : State} {p : PortInputs} {rest : List Stimulus} (hstim : s.stimuli = .ports p :: rest)
    (hrst : p.rst = true) : step s = exec .reset { s with stimuli := rest } := by
  rw [step, runNext, hstim]
  exact congrArg (performTogether · _) (selectedOps_of_rst _ hrst)

/-- Settles O60. RESET always goes on; RX_BYTE goes on where RxInv holds and keeps the queue, so the accepted transmit operation goes on
after it as it does alone. -/
theorem noPortInputsStopTheBlock : Obligations.NoPortInputsStopTheBlock := by
  intro s p rest hs hstim hdrives
  cases hrst : p.rst with
  | true => exact ⟨_, step_ports_rst hstim hrst⟩
  | false =>
    rw [step_ports hstim hrst]
    obtain ⟨a, ha⟩ : GoesOn (exec (.rxByte p.rxByte) { s with stimuli := rest }) := noWireByteStopsTheBlock _ _ hs
    rcases acceptedTransmit_goesOn hdrives s with hnone | ⟨i, hone, hgoes⟩
    · rw [hnone]
      split
      · exact ⟨a, ha⟩
      · exact ⟨_, rfl⟩
    · rw [hone]
      split
      · obtain ⟨b, hb⟩ := hgoes a (receive_txOut (s := { s with stimuli := rest }) ha)
        exact ⟨_, performTogether_pair ha hb⟩
      · exact hgoes _ rfl

end Sys2Proof.Proofs

/-! Family 30_encoding: what each row's pattern says of the fields of a key, the decoder against the encoder, and the classes as views of
RX_BYTE. -/

namespace Sys2Proof.Proofs

open Sys2Proof.Machine

/-! ## The fields of a key (R74) -/

theorem testBit_decKey (esc : Bool) (w : Byte) : (decKey esc w).testBit 8 = esc := by
  have hw : w.toNat.testBit 8 = false := Nat.testBit_lt_two_pow w.isLt
  cases esc with
  | false => simpa [decKey] using hw
  | true => simpa [decKey, hw] using Nat.testBit_two_pow_add_eq w.toNat 8

theorem ofNat_decKey (esc : Bool) (w : Byte) : BitVec.ofNat 8 (decKey esc w) = w := by
  apply BitVec.eq_of_toNat_eq
  have hw : w.toNat < 256 := w.isLt
  cases esc <;> simp [decKey, hw]

theorem decKey_and_byteMask (esc : Bool) (w : Byte) : decKey esc w &&& 0xFF = w.toNat := by
  rw [Nat.and_two_pow_sub_one_eq_mod _ 8, ← BitVec.toNat_ofNat, ofNat_decKey]

theorem decKey_and_keyMask (esc : Bool) (w : Byte) : decKey esc w &&& 0x1FF = decKey esc w := by
  rw [Nat.and_two_pow_sub_one_eq_mod _ 9, Nat.mod_eq_of_lt (Laws.KeyFits.decKey_lt esc w)]

theorem decKey_and_escMask (esc : Bool) (w : Byte) : decKey esc w &&& 0x100 = decKey esc 0 := by
  rw [show 0x100 = 2 ^ 8 from rfl, Nat.and_two_pow, testBit_decKey]
  cases esc <;> rfl

theorem toNat_and_byteMask (b : Byte) : b.toNat &&& 0xFF = b.toNat := by
  rw [Nat.and_two_pow_sub_one_eq_mod _ 8, BitVec.toNat_mod_cancel]

/-- A DEC9 key determines both of its fields. -/
theorem decKey_inj {esc esc' : Bool} {w w' : Byte} : decKey esc w = decKey esc' w' ↔ esc = esc' ∧ w = w' := by
  refine ⟨fun h => ⟨?_, ?_⟩, fun ⟨he, hw⟩ => he ▸ hw ▸ rfl⟩
  · rw [← testBit_decKey esc w, h, testBit_decKey]
  · rw [← ofNat_decKey esc w, h, ofNat_decKey]

/-- Every key of nine bits is an escape state and a byte. -/
theorem exists_decKey {k : Nat} (hk : k < 512) : ∃ esc w, k = decKey esc w := by
  by_cases h : k < 256
  · exact ⟨false, BitVec.ofNat 8 k, by simp [decKey]; omega⟩
  · exact ⟨true, BitVec.ofNat 8 k, by simp [decKey]; omega⟩

/-- Every key of eight bits is a byte. -/
theorem exists_toNat {k : Nat} (hk : k < 256) : ∃ b : Byte, k = b.toNat :=
  ⟨BitVec.ofNat 8 k, by simp; omega⟩

/-! ## What the shapes of a pattern ask of the fields (INDEX.md) -/

section
variable (esc esc' : Bool) (w w' b b' : Byte) (ws : List Byte)

/-- All nine bits fixed: one escape state and one byte. -/
theorem hits_fixedKey :
    (RowPattern.mk 0x1FF (decKey esc' w') [] none).hits (decKey esc w) = (esc == esc' && w == w') := by
  rw [Bool.eq_iff_iff]
  simp [RowPattern.hits, decKey_and_keyMask, decKey_inj]

/-- Bit 8 alone fixed: one escape state, with no byte of the excluded ones. -/
theorem hits_fixedEsc :
    (RowPattern.mk 0x100 (decKey esc' 0) (ws.map (decKey esc')) none).hits (decKey esc w) =
      (esc == esc' && !ws.contains w) := by
  rw [Bool.eq_iff_iff]
  by_cases h : esc = esc' <;> simp [RowPattern.hits, decKey_and_escMask, decKey_inj, h]

/-- The low byte alone fixed, in a key of nine bits: one byte, whatever the escape state. -/
theorem hits_fixedWireByte : (RowPattern.mk 0xFF w'.toNat [] none).hits (decKey esc w) = (w == w') := by
  rw [Bool.eq_iff_iff]
  simp [RowPattern.hits, decKey_and_byteMask, BitVec.toNat_inj]

/-- All eight bits fixed: one byte. -/
theorem hits_fixedByte : (RowPattern.mk 0xFF b'.toNat [] none).hits b.toNat = (b == b') := by
  rw [Bool.eq_iff_iff]
  simp [RowPattern.hits, toNat_and_byteMask, BitVec.toNat_inj]

end

/-! ## What each row asks of the fields (R74, R75, R78, R79) -/

section
variable (c : Config.CmdCode) (esc : Bool) (w b : Byte)

theorem hits_decDelim : (KeyRow.decDelim.pattern c).hits (decKey esc w) = (w == Config.delimiter) :=
  hits_fixedWireByte esc w Config.delimiter

theorem hits_decEsc : (KeyRow.decEsc.pattern c).hits (decKey esc w) = (esc == false && w == Config.escape) :=
  hits_fixedKey esc false w Config.escape

theorem hits_decEscDelim :
    (KeyRow.decEscDelim.pattern c).hits (decKey esc w) = (esc == true && w == Config.escapeDelim) :=
  hits_fixedKey esc true w Config.escapeDelim

theorem hits_decEscEsc :
    (KeyRow.decEscEsc.pattern c).hits (decKey esc w) = (esc == true && w == Config.escapeEscape) :=
  hits_fixedKey esc true w Config.escapeEscape

theorem hits_decLit :
    (KeyRow.decLit.pattern c).hits (decKey esc w) =
      (esc == false && !([Config.delimiter, Config.escape] : List Byte).contains w) :=
  hits_fixedEsc esc false w [Config.delimiter, Config.escape]

theorem hits_decEscBad : (KeyRow.decEscBad.pattern c).hits (decKey esc w) =
    (esc == true && !([Config.delimiter, Config.escapeDelim, Config.escapeEscape] : List Byte).contains w) :=
  hits_fixedEsc esc true w [Config.delimiter, Config.escapeDelim, Config.escapeEscape]

theorem hits_encDelim : (KeyRow.encDelim.pattern c).hits b.toNat = (b == Config.delimiter) :=
  hits_fixedByte b Config.delimiter

theorem hits_encEsc : (KeyRow.encEsc.pattern c).hits b.toNat = (b == Config.escape) :=
  hits_fixedByte b Config.escape

theorem hits_encLit : (KeyRow.encLit.pattern c).hits b.toNat = !mustEscape b := by
  rw [Bool.eq_iff_iff]
  simp [KeyRow.pattern, RowPattern.hits, mustEscape, ← BitVec.toNat_inj, Config.delimiter, Config.escape]

theorem isKnownCommand_eq_false_iff : isKnownCommand b = false ↔ Config.nCmd ≤ b.toNat :=
  decide_eq_false_iff_not.trans Nat.not_lt

theorem hits_cmdReserved : (KeyRow.cmdReserved.pattern c).hits b.toNat = !isKnownCommand b := by
  have hb : b.toNat ≤ 0xFF := Nat.le_of_lt_succ b.isLt
  rw [Bool.eq_iff_iff]
  simp [KeyRow.pattern, RowPattern.hits, isKnownCommand_eq_false_iff, Config.nCmd, hb]

end

/-! ## The command rows by their kind (R79) -/

/-- The row of a command kind in the table. -/
def commandKeyRow : Config.CommandName → KeyRow
  | .speedRequest => .speedRequest
  | .speedIndication => .speedIndication
  | .currentOverflowIndication => .currentOverflowIndication
  | .currentIndication => .currentIndication
  | .rangeIndication => .rangeIndication

/-- The instruction of a command kind. -/
def commandInstr : Config.CommandName → Instr
  | .speedRequest => .speedRequest
  | .speedIndication => .speedIndication
  | .currentOverflowIndication => .currentOverflowIndication
  | .currentIndication => .currentIndication
  | .rangeIndication => .rangeIndication

theorem commandInstr_wellFormed (n : Config.CommandName) : (commandInstr n).wellFormed = true := by
  cases n <;> rfl

theorem encode_commandInstr (c : Config.CmdCode) (n : Config.CommandName) :
    encode c (commandInstr n) = .key .cmd8 (commandCode c n).toNat := by
  cases n <;> rfl

theorem exec_commandInstr (n : Config.CommandName) (s : State) :
    exec (commandInstr n) s = commandByte (commandCode s.cmdCode n) s := by
  cases n <;> rfl

/-- On a code of its range CMD_RESERVED is the arrival of that byte. -/
theorem exec_cmdReserved {v : Byte} (hv : ¬ v.toNat < Config.nCmd) (s : State) :
    exec (.cmdReserved v) s = commandByte v s :=
  if_neg (by simpa [isKnownCommand] using hv)

/-- A command code is not of CMD_RESERVED's range. -/
theorem exec_cmdReserved_of_known {v : Byte} (hv : v.toNat < Config.nCmd) (s : State) :
    exec (.cmdReserved v) s = .refused .notSelected :=
  if_pos (decide_eq_true hv)

theorem hits_commandKeyRow (c : Config.CmdCode) (n : Config.CommandName) (b : Byte) :
    ((commandKeyRow n).pattern c).hits b.toNat = (b == commandCode c n) := by
  cases n <;> exact hits_fixedByte b _

theorem commandCode_inj (c : Config.CmdCode) {n n' : Config.CommandName} (h : commandCode c n = commandCode c n') :
    n = n' := by
  have hn := (commandNamed_eq_some c (commandCode c n') n).mpr h
  rw [(commandNamed_eq_some c _ n').mpr rfl] at hn
  exact (Option.some.inj hn).symm

/-- Five different codes below 5 are all of them (R79). -/
theorem exists_commandCode (c : Config.CmdCode) {b : Byte} (hb : b.toNat < Config.nCmd) :
    ∃ n, commandCode c n = b := by
  have hall : (⟨b.toNat, hb⟩ : Fin 5) ∈ [c.speedRequest, c.speedIndication, c.currentOverflowIndication,
      c.currentIndication, c.rangeIndication] := by
    rw [← List.mem_toFinset, Finset.eq_univ_of_card _ (List.toFinset_card_of_nodup c.distinct)]
    exact Finset.mem_univ _
  have hcode : ∀ i : Fin 5, ⟨b.toNat, hb⟩ = i → BitVec.ofNat 8 i.val = b := by
    rintro _ rfl
    exact (BitVec.ofNat_toNat 8 b).trans b.setWidth_eq
  simp only [List.mem_cons, List.not_mem_nil, or_false] at hall
  rcases hall with h | h | h | h | h
  · exact ⟨.speedRequest, hcode _ h⟩
  · exact ⟨.speedIndication, hcode _ h⟩
  · exact ⟨.currentOverflowIndication, hcode _ h⟩
  · exact ⟨.currentIndication, hcode _ h⟩
  · exact ⟨.rangeIndication, hcode _ h⟩

/-! ## Exactly one row of a format matches a key (INDEX.md) -/

theorem countP_dec9_hits (c : Config.CmdCode) (esc : Bool) (w : Byte) :
    KeyFormat.dec9.rows.countP (fun r => (r.pattern c).hits (decKey esc w)) = 1 := by
  simp only [KeyFormat.rows, List.countP_cons, List.countP_nil, hits_decDelim, hits_decEsc, hits_decEscDelim,
    hits_decEscEsc, hits_decLit, hits_decEscBad]
  rcases decodeByte_cases esc w with ⟨rfl, -⟩ | ⟨rfl, rfl, -⟩ | ⟨rfl, h1, h2, -⟩ | ⟨rfl, rfl, -⟩ | ⟨rfl, rfl, -⟩ |
    ⟨rfl, h1, h2, h3, -⟩
  · cases esc <;> rfl
  · rfl
  · simp [h1, h2]
  · rfl
  · rfl
  · simp [h1, h2, h3]

theorem countP_enc8_hits (c : Config.CmdCode) (b : Byte) :
    KeyFormat.enc8.rows.countP (fun r => (r.pattern c).hits b.toNat) = 1 := by
  simp only [KeyFormat.rows, List.countP_cons, List.countP_nil, hits_encDelim, hits_encEsc, hits_encLit]
  rcases encodeByte_cases b with ⟨rfl, -⟩ | ⟨rfl, -⟩ | ⟨h1, h2, -⟩
  · rfl
  · rfl
  · simp [mustEscape, h1, h2]

theorem countP_cmd8_hits (c : Config.CmdCode) (b : Byte) :
    KeyFormat.cmd8.rows.countP (fun r => (r.pattern c).hits b.toNat) = 1 := by
  have hrows : KeyFormat.cmd8.rows = commandNames.map commandKeyRow ++ [.cmdReserved] := rfl
  rw [hrows, List.countP_append, List.countP_map, List.countP_singleton, hits_cmdReserved]
  simp only [Function.comp_def, hits_commandKeyRow]
  cases hb : isKnownCommand b with
  | true =>
    obtain ⟨n, rfl⟩ := exists_commandCode c (of_decide_eq_true hb)
    have hsame (m : Config.CommandName) : (commandCode c n == commandCode c m) = (n == m) := by
      rw [Bool.eq_iff_iff, beq_iff_eq, beq_iff_eq]
      exact ⟨commandCode_inj c, congrArg _⟩
    simp only [hsame]
    cases n <;> rfl
  | false =>
    have hnone : commandNames.countP (fun n => b == commandCode c n) = 0 := by
      rw [List.countP_eq_zero]
      rintro n - hn
      rw [beq_iff_eq.mp hn] at hb
      exact absurd (commandCode_toNat_lt c n) (of_decide_eq_false hb)
    simp [hnone]

theorem countP_hits (c : Config.CmdCode) (f : KeyFormat) {k : Nat} (hk : k < 2 ^ f.width) :
    f.rows.countP (fun r => (r.pattern c).hits k) = 1 := by
  cases f with
  | dec9 => obtain ⟨esc, w, rfl⟩ := exists_decKey hk; exact countP_dec9_hits c esc w
  | enc8 => obtain ⟨b, rfl⟩ := exists_toNat hk; exact countP_enc8_hits c b
  | cmd8 => obtain ⟨b, rfl⟩ := exists_toNat hk; exact countP_cmd8_hits c b

/-- Settles O2. In a format's width the rows are counted; above it `decodeKey` answers before it tries a row. -/
theorem everyKeyHitsExactlyOneRow : Obligations.EveryKeyHitsExactlyOneRow :=
  fun c f _ => ⟨countP_hits c f, fun hk => if_pos hk⟩

/-! ## Decoding what was encoded (R74, R75, R78, R79, R87) -/

/-- Of the elements of a list that pass a test, a search finds the one there is. -/
theorem find?_eq_some_of_countP_eq_one {α : Type} {p : α → Bool} {l : List α} {a : α} (h : l.countP p = 1)
    (ha : a ∈ l) (hp : p a = true) : l.find? p = some a := by
  rw [List.countP_eq_length_filter, List.length_eq_one_iff] at h
  obtain ⟨b, hb⟩ := h
  have hab : a ∈ l.filter p := List.mem_filter.mpr ⟨ha, hp⟩
  rw [hb, List.mem_singleton] at hab
  rw [← List.head?_filter, hb, hab, List.head?_singleton]

/-- A key decodes to whichever row of its format matches it: no other row does. -/
theorem decodeKey_of_hits {c : Config.CmdCode} {f : KeyFormat} {k : Nat} (r : KeyRow) (hr : r ∈ f.rows)
    (hk : k < 2 ^ f.width) (hit : (r.pattern c).hits k = true) : decodeKey c f k = .ok (r.instr k) := by
  rw [decodeKey, if_neg (Nat.not_le.mpr hk), find?_eq_some_of_countP_eq_one (countP_hits c f hk) hr hit]

theorem decodeKey_dec9_of_hits {c : Config.CmdCode} {esc : Bool} {w : Byte} (r : KeyRow) (hr : r ∈ KeyFormat.dec9.rows)
    (hit : (r.pattern c).hits (decKey esc w) = true) :
    decodeKey c .dec9 (decKey esc w) = .ok (r.instr (decKey esc w)) :=
  decodeKey_of_hits r hr (Laws.KeyFits.decKey_lt esc w) hit

theorem decodeKey_commandCode (c : Config.CmdCode) (n : Config.CommandName) :
    decodeKey c .cmd8 (commandCode c n).toNat = .ok (commandInstr n) := by
  rw [decodeKey_of_hits (commandKeyRow n) (by cases n <;> decide) (commandCode c n).isLt
    (by rw [hits_commandKeyRow, beq_self_eq_true])]
  cases n <;> rfl

/-- The key of a well-formed row decodes to that row. -/
theorem decodeKey_encode {c : Config.CmdCode} {i : Instr} {f : KeyFormat} {k : Nat} (hi : i.wellFormed = true)
    (h : encode c i = .key f k) : decodeKey c f k = .ok i := by
  cases i with
  | rxByte _ | txFrame _ _ _ | txPop | reset => cases h
  | decDelim esc =>
    cases h
    rw [decodeKey_dec9_of_hits .decDelim (by decide) (by rw [hits_decDelim]; rfl), KeyRow.instr, testBit_decKey]
  | decEsc => cases h; exact decodeKey_dec9_of_hits .decEsc (by decide) (by rw [hits_decEsc]; rfl)
  | decEscDelim => cases h; exact decodeKey_dec9_of_hits .decEscDelim (by decide) (by rw [hits_decEscDelim]; rfl)
  | decEscEsc => cases h; exact decodeKey_dec9_of_hits .decEscEsc (by decide) (by rw [hits_decEscEsc]; rfl)
  | decLit w =>
    cases h
    rw [decodeKey_dec9_of_hits .decLit (by decide) (by simpa [hits_decLit, Instr.wellFormed] using hi), KeyRow.instr,
      ofNat_decKey]
  | decEscBad w =>
    cases h
    rw [decodeKey_dec9_of_hits .decEscBad (by decide) (by simpa [hits_decEscBad, Instr.wellFormed, and_assoc] using hi),
      KeyRow.instr, ofNat_decKey]
  | encDelim => cases h; exact decodeKey_of_hits .encDelim (by decide) (BitVec.isLt _) (by rw [hits_encDelim]; rfl)
  | encEsc => cases h; exact decodeKey_of_hits .encEsc (by decide) (BitVec.isLt _) (by rw [hits_encEsc]; rfl)
  | encLit b =>
    cases h
    rw [decodeKey_of_hits .encLit (by decide) b.isLt (by simpa [hits_encLit, Instr.wellFormed, mustEscape] using hi),
      KeyRow.instr, BitVec.ofNat_toNat, BitVec.setWidth_eq]
  | speedRequest => cases h; exact decodeKey_commandCode c .speedRequest
  | speedIndication => cases h; exact decodeKey_commandCode c .speedIndication
  | currentOverflowIndication => cases h; exact decodeKey_commandCode c .currentOverflowIndication
  | currentIndication => cases h; exact decodeKey_commandCode c .currentIndication
  | rangeIndication => cases h; exact decodeKey_commandCode c .rangeIndication
  | cmdReserved b =>
    cases h
    rw [decodeKey_of_hits .cmdReserved (by decide) b.isLt
      (by simpa [hits_cmdReserved, isKnownCommand_eq_false_iff, Instr.wellFormed] using hi), KeyRow.instr,
      BitVec.ofNat_toNat, BitVec.setWidth_eq]

/-- The port levels of a well-formed operation select that operation alone. -/
theorem decodePorts_encode {c : Config.CmdCode} {i : Instr} {l : PortLevels} (hi : i.wellFormed = true)
    (h : encode c i = .ports l) : decodePorts l = [i] := by
  cases i with
  | txFrame cmd len p =>
    cases h
    have hp : p.length ≤ len.toNat := (beq_iff_eq.mp hi).trans_le (Nat.min_le_left _ _)
    simp [decodePorts, PortLevels.quiet, List.take_of_length_le hp]
  | rxByte _ | txPop | reset => cases h; rfl
  | _ => cases h

/-- Settles O3. The two forms of an encoding are decoded apart. -/
theorem decodeInvertsEncodeOnRows : Obligations.DecodeInvertsEncodeOnRows := by
  intro c i hi
  cases h : encode c i with
  | ports l => rw [decode, decodePorts_encode hi h]
  | key f k => rw [decode, decodeKey_encode hi h]; rfl

/-! ## Every key is the encoding of a row (R74, R75, R78) -/

/-- Every wire byte falls in a decoder class, whose row is RX_BYTE of that byte (R74, R140). -/
theorem exists_decoderClass (c : Config.CmdCode) (esc : Bool) (w : Byte) :
    ∃ i : Instr, i.wellFormed = true ∧ encode c i = .key .dec9 (decKey esc w) ∧
      ∀ s : State, s.escPending = esc → exec (.rxByte w) s = exec i s := by
  have hrow {d : Bool × DecResult} {i : Instr} (hd : decodeByte esc w = d)
      (hi : ∀ s : State, s.escPending = esc → exec i s = receive d s) (s : State) (hs : s.escPending = esc) :
      exec (.rxByte w) s = exec i s := by
    rw [exec_rxByte, hs, hd, hi s hs]
  rcases decodeByte_cases esc w with ⟨rfl, hd⟩ | ⟨rfl, rfl, hd⟩ | ⟨rfl, h1, h2, hd⟩ | ⟨rfl, rfl, hd⟩ |
    ⟨rfl, rfl, hd⟩ | ⟨rfl, h1, h2, h3, hd⟩
  · exact ⟨.decDelim esc, rfl, rfl, hrow hd fun _ hs => if_pos hs⟩
  · exact ⟨.decEsc, rfl, rfl, hrow hd fun _ hs => if_pos hs⟩
  · exact ⟨.decLit w, by simp [Instr.wellFormed, h1, h2], rfl, hrow hd fun _ hs => if_pos ⟨hs, h1, h2⟩⟩
  · exact ⟨.decEscDelim, rfl, rfl, hrow hd fun _ hs => if_pos hs⟩
  · exact ⟨.decEscEsc, rfl, rfl, hrow hd fun _ hs => if_pos hs⟩
  · exact ⟨.decEscBad w, by simp [Instr.wellFormed, h1, h2, h3], rfl, hrow hd fun _ hs => if_pos ⟨hs, h1, h2, h3⟩⟩

/-- Every logical byte falls in an encoder class (R75). -/
theorem exists_encoderClass (c : Config.CmdCode) (b : Byte) :
    ∃ i : Instr, i.wellFormed = true ∧ encode c i = .key .enc8 b.toNat := by
  rcases encodeByte_cases b with ⟨rfl, -⟩ | ⟨rfl, -⟩ | ⟨h1, h2, -⟩
  · exact ⟨.encDelim, rfl, rfl⟩
  · exact ⟨.encEsc, rfl, rfl⟩
  · exact ⟨.encLit b, by simp [Instr.wellFormed, h1, h2], rfl⟩

/-- Every COMMAND byte has a command row, which is the arrival of that byte (R78, R145). -/
theorem exists_commandRow (c : Config.CmdCode) (b : Byte) :
    ∃ i : Instr, i.wellFormed = true ∧ encode c i = .key .cmd8 b.toNat ∧
      ∀ s : State, s.cmdCode = c → exec i s = commandByte b s := by
  by_cases hb : b.toNat < Config.nCmd
  · obtain ⟨n, rfl⟩ := exists_commandCode c hb
    exact ⟨commandInstr n, commandInstr_wellFormed n, encode_commandInstr c n,
      fun s hs => hs ▸ exec_commandInstr n s⟩
  · exact ⟨.cmdReserved b, decide_eq_true (Nat.not_lt.mp hb), rfl, fun s _ => exec_cmdReserved hb s⟩

theorem exists_encode_eq_key (c : Config.CmdCode) (f : KeyFormat) {k : Nat} (hk : k < 2 ^ f.width) :
    ∃ i : Instr, i.wellFormed = true ∧ encode c i = .key f k := by
  cases f with
  | dec9 =>
    obtain ⟨esc, w, rfl⟩ := exists_decKey hk
    obtain ⟨i, hi, henc, -⟩ := exists_decoderClass c esc w
    exact ⟨i, hi, henc⟩
  | enc8 => obtain ⟨b, rfl⟩ := exists_toNat hk; exact exists_encoderClass c b
  | cmd8 =>
    obtain ⟨b, rfl⟩ := exists_toNat hk
    obtain ⟨i, hi, henc, -⟩ := exists_commandRow c b
    exact ⟨i, hi, henc⟩

/-- Settles O4. The key is the encoding of some well-formed row, and it decodes to that row. -/
theorem encodeInvertsDecodeOnKeys : Obligations.EncodeInvertsDecodeOnKeys := by
  intro c f k i hdec
  have hk : k < 2 ^ f.width := by
    by_contra hwide
    rw [decodeKey, if_pos (Nat.not_lt.mp hwide)] at hdec
    cases hdec
  obtain ⟨j, hj, henc⟩ := exists_encode_eq_key c f hk
  obtain rfl : j = i := Except.ok.inj ((decodeKey_encode hj henc).symm.trans hdec)
  exact ⟨hj, henc⟩

/-- Settles O1. Each word is the key that the encoder gives its row. -/
theorem tableWordsDecodeToTheirRows : Obligations.TableWordsDecodeToTheirRows := by
  and_intros <;> exact decodeKey_encode rfl rfl

/-! ## The length of a wire frame (R76) -/

/-- Settles O21. 512 bytes: 254 payload bytes that all must be escaped, and a checksum that is not. -/
theorem wireFrameLengthBounds : Obligations.WireFrameLengthBounds := by
  refine ⟨fun xs hxs => ⟨?_, isWireFrame_length_le hxs⟩, ?_, ?_⟩
  · obtain ⟨cmd, len, p, -, -, -, rfl⟩ := hxs
    rw [length_wireFrame]
    omega
  · exact ⟨wireFrame 2 0 [], ⟨2, 0, [], by decide, by decide, rfl, rfl⟩, by decide⟩
  · have hp : (List.replicate 254 Config.delimiter).length = 254 := List.length_replicate
    refine ⟨_, ⟨2, 254, List.replicate 254 Config.delimiter, by decide, by decide, hp, rfl⟩, ?_⟩
    have hall : ∀ b ∈ List.replicate 254 Config.delimiter, mustEscape b = true := fun b hb => by
      rw [List.eq_of_mem_replicate hb]; rfl
    have hchk := checksum_not_escaped (cmd := 2) (len := 254) (by decide) rfl hp hall
    rw [length_wireFrame, hp, List.countP_eq_length.mpr hall, hp, List.countP_singleton, hchk]
    decide

/-! ## The classes and command rows as views of RX_BYTE (R74, R78, R140, R145) -/

/-- RX_BYTE is every well-formed row whose key the decoder forms of `esc_pending` and the byte. -/
theorem exec_rxByte_eq_of_encode {i : Instr} {s : State} {w : Byte} (hi : i.wellFormed = true)
    (h : encode s.cmdCode i = .key .dec9 (decKey s.escPending w)) : exec (.rxByte w) s = exec i s := by
  obtain ⟨j, hj, henc, hexec⟩ := exists_decoderClass s.cmdCode s.escPending w
  obtain rfl : j = i := Except.ok.inj ((decodeKey_encode hj henc).symm.trans (decodeKey_encode hi h))
  exact hexec s rfl

/-- Settles O34. The row is the byte's decoder class. -/
theorem rxByteIsItsDecoderClass : Obligations.RxByteIsItsDecoderClass := by
  intro s w
  obtain ⟨i, hi, henc, hexec⟩ := exists_decoderClass s.cmdCode s.escPending w
  exact ⟨i, decodeKey_encode hi henc, hexec s rfl⟩

theorem canArrive_iff_escPending_iff {v : Byte} {s : State} :
    canArrive v s = true ↔ (s.escPending = true ↔ (v = Config.delimiter ∨ v = Config.escape)) := by
  rw [canArrive, beq_iff_eq, Bool.eq_iff_iff, mustEscape, Bool.or_eq_true, beq_iff_eq, beq_iff_eq]

/-- A logical byte can arrive exactly when some wire byte decodes to it now (R107 to R109). -/
theorem canArrive_iff_exists_decodeByte {v : Byte} {s : State} :
    canArrive v s = true ↔ ∃ w, decodeByte s.escPending w = (false, .byte v) := by
  rw [canArrive, beq_iff_eq]
  constructor
  · intro h
    rcases encodeByte_cases v with ⟨rfl, -⟩ | ⟨rfl, -⟩ | ⟨h1, h2, -⟩
    · exact ⟨Config.escapeDelim, h ▸ decodeByte_escapeDelim⟩
    · exact ⟨Config.escapeEscape, h ▸ decodeByte_escapeEscape⟩
    · have hlit : mustEscape v = false := by simp [mustEscape, h1, h2]
      exact ⟨v, h ▸ hlit ▸ decodeByte_literal v h1 h2⟩
  · rintro ⟨w, h⟩
    rcases decodeByte_cases s.escPending w with ⟨-, hd⟩ | ⟨-, -, hd⟩ | ⟨hesc, h1, h2, hd⟩ | ⟨hesc, -, hd⟩ |
      ⟨hesc, -, hd⟩ | ⟨-, -, -, -, hd⟩ <;> cases h.symm.trans hd
    · simp [hesc, mustEscape, h1, h2]
    · exact hesc
    · exact hesc

/-- Settles O35. The row is the byte's command row, whose guard holds: the phase is COMMAND, and the byte did arrive. -/
theorem commandPhaseByteIsItsCommandRow : Obligations.CommandPhaseByteIsItsCommandRow := by
  intro s w v hphase hd
  obtain ⟨i, hi, henc, hexec⟩ := exists_commandRow s.cmdCode v
  refine ⟨i, decodeKey_encode hi henc, ?_⟩
  rw [exec_rxByte, hd, hexec s rfl, commandByte, if_pos ⟨hphase, canArrive_iff_exists_decodeByte.mpr ⟨w, hd⟩⟩]

/-- A COMMAND byte that is taken is RX_BYTE of the wire byte that decodes to it. -/
theorem exists_rxByte_of_commandByte {v : Byte} {s t : State} (h : commandByte v s = .next t) :
    ∃ w, exec (.rxByte w) s = .next t := by
  obtain ⟨⟨-, harrive⟩, hnext⟩ := guard_next h
  obtain ⟨w, hw⟩ := canArrive_iff_exists_decodeByte.mp harrive
  exact ⟨w, by rw [exec_rxByte, hw, hnext]⟩

/-- Settles O36. A class row's guard is that the decoder forms its key of `esc_pending` and its byte. -/
theorem receiveRowsAreRxBytes : Obligations.ReceiveRowsAreRxBytes := by
  intro i s t hi h
  have hclass (w : Byte) (hwf : i.wellFormed = true) (henc : encode s.cmdCode i = .key .dec9 (decKey s.escPending w)) :
      ∃ w, exec (.rxByte w) s = .next t :=
    ⟨w, (exec_rxByte_eq_of_encode hwf henc).trans h⟩
  cases i with
  | rxByte w => exact ⟨w, h⟩
  | decDelim esc => exact hclass Config.delimiter rfl (by rw [(guard_next h).1]; rfl)
  | decEsc => exact hclass Config.escape rfl (by rw [(guard_next h).1]; rfl)
  | decEscDelim => exact hclass Config.escapeDelim rfl (by rw [(guard_next h).1]; rfl)
  | decEscEsc => exact hclass Config.escapeEscape rfl (by rw [(guard_next h).1]; rfl)
  | decLit w =>
    obtain ⟨⟨hesc, h1, h2⟩, -⟩ := guard_next h
    exact hclass w (by simp [Instr.wellFormed, h1, h2]) (by rw [hesc]; rfl)
  | decEscBad w =>
    obtain ⟨⟨hesc, h1, h2, h3⟩, -⟩ := guard_next h
    exact hclass w (by simp [Instr.wellFormed, h1, h2, h3]) (by rw [hesc]; rfl)
  | speedRequest | speedIndication | currentOverflowIndication | currentIndication | rangeIndication =>
    exact exists_rxByte_of_commandByte h
  | cmdReserved c =>
    by_cases hc : c.toNat < Config.nCmd
    · cases (exec_cmdReserved_of_known hc s).symm.trans h
    · exact exists_rxByte_of_commandByte ((exec_cmdReserved hc s).symm.trans h)
  | txFrame _ _ _ | txPop | reset | encDelim | encEsc | encLit _ => cases hi

/-! ## The command rows in COMMAND (R126 to R130, R145) -/

/-- A command code comes plain (R73). -/
theorem canArrive_commandCode (c : Config.CmdCode) (n : Config.CommandName) (s : State) :
    canArrive (commandCode c n) s = !s.escPending := by
  simp [canArrive, mustEscape_commandCode]

/-- In COMMAND with no escape pending, a command kind's row takes its code as the frame's command. -/
theorem exec_commandInstr_command (n : Config.CommandName) {s : State} (hphase : s.rxPhase = .command)
    (hesc : s.escPending = false) :
    exec (commandInstr n) s =
      .next { s with rxCmd := commandCode s.cmdCode n, rxPhase := .len, out := Outputs.none, tick := s.tick + 1 } := by
  have harrive : canArrive (commandCode s.cmdCode n) s = true := by rw [canArrive_commandCode, hesc]; rfl
  have hknown : isKnownCommand (commandCode s.cmdCode n) = true := decide_eq_true (commandCode_toNat_lt s.cmdCode n)
  rw [exec_commandInstr, commandByte, if_pos ⟨hphase, harrive⟩, receive_byte_command false _ hphase, onCommand,
    if_pos hknown, ← hesc]
  rfl

/-- Settles O31. The five listed rows are the five command kinds with their EXP_LEN. -/
theorem commandRowsStartTheirFrame : Obligations.CommandRowsStartTheirFrame := by
  refine ⟨fun s hphase hesc i n e hmem => ?_, fun c _ _ => commandCode_inj c, by decide⟩
  have hmap : (i, n, e) ∈ commandNames.map (fun m => (commandInstr m, m, expLenOf m)) := hmem
  obtain ⟨m, -, hm⟩ := List.mem_map.mp hmap
  cases hm
  exact ⟨exec_commandInstr_command n hphase hesc, expLen_commandCode s.cmdCode n, commandCode_toNat_lt s.cmdCode n⟩

/-! ## Rows that the state does not select (R74, R75, R78) -/

theorem commandByte_refused {v : Byte} {s : State} (h : s.rxPhase ≠ .command ∨ canArrive v s ≠ true) :
    commandByte v s = .refused .notSelected :=
  if_neg fun ⟨hphase, harrive⟩ => h.elim (· hphase) (· harrive)

theorem exec_cmdReserved_refused {v : Byte} {s : State} (h : s.rxPhase ≠ .command ∨ v.toNat < Config.nCmd ∨
    ¬ (s.escPending = true ↔ (v = Config.delimiter ∨ v = Config.escape))) :
    exec (.cmdReserved v) s = .refused .notSelected := by
  by_cases hv : v.toNat < Config.nCmd
  · exact exec_cmdReserved_of_known hv s
  · rw [exec_cmdReserved hv]
    exact commandByte_refused (h.imp_right fun h => mt canArrive_iff_escPending_iff.mp (h.resolve_left hv))

/-- Settles O33. Each row's guard fails where its clause holds. -/
theorem unselectedRowsAreRefused : Obligations.UnselectedRowsAreRefused := by
  intro s
  refine ⟨fun esc h => if_neg h.symm, fun h => if_neg (by simp [h]), fun h => ⟨if_neg (by simp [h]), if_neg (by simp [h])⟩,
    fun w h => if_neg ?_, fun w h => if_neg ?_, fun b h => if_pos ?_, fun h i hi => ?_,
    fun c h => exec_cmdReserved_refused h⟩
  · rintro ⟨hesc, h1, h2⟩
    rcases h with h | h | h
    · simp [hesc] at h
    · exact h1 h
    · exact h2 h
  · rintro ⟨hesc, h1, h2, h3⟩
    rcases h with h | h | h | h
    · simp [hesc] at h
    · exact h1 h
    · exact h2 h
    · exact h3 h
  · rcases h with rfl | rfl <;> rfl
  · have hmap : i ∈ commandNames.map commandInstr := hi
    obtain ⟨n, -, rfl⟩ := List.mem_map.mp hmap
    rw [exec_commandInstr, commandByte_refused (h.imp_right fun hesc => by simp [canArrive_commandCode, hesc])]

end Sys2Proof.Proofs

/-! Family 40_frame_codec: the escape encoder, the decoder as its inverse, and the decoder classes as receive transitions. -/

namespace Sys2Proof.Proofs

open Sys2Proof.Machine Sys2Proof.Safety

/-! ## The codec's forms of one byte (R101 to R110) -/

theorem encodeByte_literal {b : Byte} (h1 : b ≠ Config.delimiter) (h2 : b ≠ Config.escape) : encodeByte b = [b] := by
  simp [encodeByte, h1, h2]

theorem decodeByte_badEscape {w : Byte} (h1 : w ≠ Config.delimiter) (h2 : w ≠ Config.escapeDelim)
    (h3 : w ≠ Config.escapeEscape) : decodeByte true w = (false, .badEsc w) := by
  simp [decodeByte, h1, h2, h3]

/-- A logical byte is sent as ESCAPE and a second byte that the decoder turns back into it, or plain. -/
theorem encodeByte_escaped_or_plain (b : Byte) :
    (∃ w, (w = Config.escapeDelim ∨ w = Config.escapeEscape) ∧ encodeByte b = [Config.escape, w] ∧
      decodeByte true w = (false, .byte b)) ∨
    (b ≠ Config.delimiter ∧ b ≠ Config.escape ∧ encodeByte b = [b]) := by
  rcases encodeByte_cases b with ⟨rfl, h⟩ | ⟨rfl, h⟩ | hplain
  · exact .inl ⟨_, .inl rfl, h, decodeByte_escapeDelim⟩
  · exact .inl ⟨_, .inr rfl, h, decodeByte_escapeEscape⟩
  · exact .inr hplain

/-! ## Escape-freedom (R113) -/

theorem delimiter_notMem_encodeByte (b : Byte) : Config.delimiter ∉ encodeByte b := by
  rcases encodeByte_escaped_or_plain b with ⟨w, rfl | rfl, h, -⟩ | ⟨hdelim, -, h⟩
  · rw [h]; decide
  · rw [h]; decide
  · rw [h, List.mem_singleton]; exact hdelim.symm

theorem delimiter_notMem_encodeBytes (bs : List Byte) : Config.delimiter ∉ encodeBytes bs := by
  intro hmem
  obtain ⟨b, -, hb⟩ := List.mem_flatMap.mp hmem
  exact delimiter_notMem_encodeByte b hb

/-- In an escaped form an ESCAPE is never the second byte of an escape and never plain, so a second byte follows it. -/
theorem getElem?_encodeBytes_after_escape {bs : List Byte} {i : Nat} (hi : (encodeBytes bs)[i]? = some Config.escape) :
    (encodeBytes bs)[i + 1]? = some Config.escapeDelim ∨ (encodeBytes bs)[i + 1]? = some Config.escapeEscape := by
  induction bs generalizing i with
  | nil => cases hi
  | cons b bs ih =>
    rw [encodeBytes_cons] at hi ⊢
    rcases encodeByte_escaped_or_plain b with ⟨w, hw, h, -⟩ | ⟨-, hesc, h⟩
    · rw [h] at hi ⊢
      match i, hi with
      | 0, _ => exact hw.imp (congrArg some) (congrArg some)
      | 1, hi =>
        obtain rfl : w = Config.escape := Option.some.inj hi
        exact absurd hw (by decide)
      | i + 2, hi => exact ih hi
    · rw [h] at hi ⊢
      match i, hi with
      | 0, hi => exact absurd (Option.some.inj hi) hesc
      | i + 1, hi => exact ih hi

/-- Settles O17. A wire frame is its DELIMITER and an escaped form. -/
theorem encodedBytesHoldNoDelimiter : Obligations.EncodedBytesHoldNoDelimiter :=
  ⟨fun xs => ⟨delimiter_notMem_encodeBytes xs, fun _ => getElem?_encodeBytes_after_escape⟩,
    fun cmd len p => ⟨_, rfl, delimiter_notMem_encodeBytes (logicalFrame cmd len p)⟩⟩

/-! ## Decode inverts encode (R114) -/

theorem decodeBytes_cons_of_eq {esc esc' : Bool} {w : Byte} {r : DecResult} (ws : List Byte)
    (h : decodeByte esc w = (esc', r)) :
    decodeBytes esc (w :: ws) = ((decodeBytes esc' ws).1, r :: (decodeBytes esc' ws).2) := by
  rw [decodeBytes, h]

/-- The decoder takes the form of one byte as that byte, and is then where it was: with no escape pending. -/
theorem decodeBytes_encodeByte_append (b : Byte) (ws : List Byte) :
    (decodeBytes false (encodeByte b ++ ws)).1 = (decodeBytes false ws).1 ∧
    withoutNone (decodeBytes false (encodeByte b ++ ws)).2 = .byte b :: withoutNone (decodeBytes false ws).2 := by
  rcases encodeByte_escaped_or_plain b with ⟨w, -, h, hw⟩ | ⟨hdelim, hesc, h⟩
  · have hdec : decodeBytes false (encodeByte b ++ ws) =
        ((decodeBytes false ws).1, .none :: .byte b :: (decodeBytes false ws).2) := by
      rw [h, List.cons_append, List.singleton_append, decodeBytes_cons_of_eq _ decodeByte_escape,
        decodeBytes_cons_of_eq _ hw]
    rw [hdec]
    exact ⟨rfl, rfl⟩
  · rw [h, List.singleton_append, decodeBytes_cons_of_eq _ (decodeByte_literal b hdelim hesc)]
    exact ⟨rfl, rfl⟩

/-- Settles O18, by induction on the logical bytes. -/
theorem decodeBytesInvertsEncodeBytes : Obligations.DecodeBytesInvertsEncodeBytes := by
  intro xs
  induction xs with
  | nil => exact ⟨rfl, rfl⟩
  | cons b bs ih =>
    obtain ⟨hesc, hbytes⟩ := ih
    obtain ⟨hesc', hbytes'⟩ := decodeBytes_encodeByte_append b (encodeBytes bs)
    rw [encodeBytes_cons, hesc', hbytes', hbytes]
    exact ⟨hesc, rfl⟩

/-! ## A class row beside RX_BYTE (R74, R140) -/

/-- RX_BYTE of a byte, and a row that is the receive transition on the decoder's answer to it, reach the same next state (R74, R140). -/
theorem rxByte_and_row_of_receive {s t : State} {i : Instr} {w : Byte} {d : Bool × DecResult}
    (hrow : exec i s = receive d s) (hdec : decodeByte s.escPending w = d) (h : receive d s = .next t) :
    exec (.rxByte w) s = .next t ∧ exec i s = .next t :=
  ⟨by rw [exec_rxByte, hdec, h], hrow.trans h⟩

/-! ## The classes that give a logical byte (R107 to R109) -/

/-- A receive transition leaves `esc_pending` as the decoder answered it (R140). -/
theorem receive_escPending {d : Bool × DecResult} {s t : State} (h : receive d s = .next t) : t.escPending = d.1 := by
  obtain ⟨esc, r⟩ := d
  rcases receive_cases h with ⟨-, rfl⟩ | ⟨-, rfl⟩ | ⟨w, -, rfl⟩ | ⟨v, -, hbyte⟩
  case inr.inr.inr =>
    rcases hbyte with ⟨-, rfl⟩ | ⟨-, -, rfl⟩ | ⟨-, -, rfl⟩ | ⟨-, -, rfl⟩ | ⟨-, -, rfl⟩ | ⟨-, -, rfl⟩ | ⟨-, p, -, rfl⟩
    case inr.inr.inr.inr.inr.inr => exact onVerdict_escPending v p _
    all_goals rfl
  all_goals rfl

/-- In DATA a receive transition on a logical byte stores it at the cursor (R147). -/
theorem receive_byte_data_stores {esc : Bool} {v : Byte} {s t : State} (h : receive (esc, .byte v) s = .next t)
    (hdata : s.rxPhase = .data) (hcur : s.rxCur.toNat < Config.maxLen) :
    t.rxBuf.read s.rxCur.toNat = some v := by
  cases (receive_byte_data esc v hdata hcur).symm.trans h
  exact read_write_same _ _ _

/-- A row that is the receive transition on a logical byte, and RX_BYTE of a wire byte that decodes to it: where the receive invariant
holds both complete alike, with the escape cleared and in DATA with the logical byte stored. -/
theorem logicalByteRow_completes {s : State} (hs : RxInv s) {i : Instr} {w v : Byte}
    (hrow : exec i s = receive (false, .byte v) s) (hdec : decodeByte s.escPending w = (false, .byte v)) :
    ∃ t, exec i s = .next t ∧ exec (.rxByte w) s = .next t ∧ t.escPending = false ∧
      (s.rxPhase = .data → t.rxBuf.read s.rxCur.toNat = some v) := by
  obtain ⟨t, ht⟩ := receive_goesOn hs (false, .byte v)
  obtain ⟨hbyte, hnext⟩ := rxByte_and_row_of_receive hrow hdec ht
  refine ⟨t, hnext, hbyte, receive_escPending ht, fun hdata => ?_⟩
  obtain ⟨-, hlegal, hbelow, -, -⟩ := hs
  exact receive_byte_data_stores ht hdata (Nat.lt_of_lt_of_le (hbelow hdata) (hlegal (.inl hdata)))

/-- Settles O30. Each class row's guard holds, and the decoder answers its byte as the row's rule says. -/
theorem logicalByteClassesComplete : Obligations.LogicalByteClassesComplete := by
  refine fun s hs => ⟨fun hesc w h1 h2 => ?_, fun hesc => ⟨?_, ?_⟩⟩
  · exact logicalByteRow_completes hs (if_pos ⟨hesc, h1, h2⟩) (hesc ▸ decodeByte_literal w h1 h2)
  · exact logicalByteRow_completes hs (if_pos hesc) (hesc ▸ decodeByte_escapeDelim)
  · exact logicalByteRow_completes hs (if_pos hesc) (hesc ▸ decodeByte_escapeEscape)

/-! ## The codec's tables (R100 to R110) -/

/-- ENC_LIT answers every byte of its class, forward (R103). -/
theorem execEncLit_of_plain {b : Byte} (s : State) (h1 : b ≠ Config.delimiter) (h2 : b ≠ Config.escape) :
    execEncLit b s = .next (encoderAnswers [b] s) :=
  if_neg (by simp [mustEscape, h1, h2])

/-- Settles O15. The two fixed answers are the definition's, and so are the two rows that show them. -/
theorem encoderRowsAnswerAsSpecified : Obligations.EncoderRowsAnswerAsSpecified :=
  ⟨rfl, rfl, fun _ => encodeByte_literal, fun s => ⟨rfl, rfl, fun _ => execEncLit_of_plain s⟩⟩

/-- Settles O16, one answer per class. -/
theorem decodeByteFollowsItsTable : Obligations.DecodeByteFollowsItsTable :=
  fun esc w => ⟨decodeByte_delimiter esc, decodeByte_escape, decodeByte_literal w, decodeByte_escapeDelim,
    decodeByte_escapeEscape, decodeByte_badEscape⟩

/-! ## The classes that give no logical byte (R105, R106, R110) -/

/-- Settles O22. The row's guard holds in the state whose escape bit it carries. -/
theorem delimiterStartsAFrame : Obligations.DelimiterStartsAFrame :=
  fun s => rxByte_and_row_of_receive (if_pos rfl) (decodeByte_delimiter s.escPending) (receive_sof false s)

/-- Settles O23. The decoder answers NONE, and the reassembler does nothing with it. -/
theorem escapeByteBeginsAnEscape : Obligations.EscapeByteBeginsAnEscape :=
  fun s hesc => rxByte_and_row_of_receive (if_pos hesc) (hesc ▸ decodeByte_escape) (receive_none true s)

/-- Settles O24. The decoder answers BADESC, on which the reassembler raises the event whatever its phase is. -/
theorem badEscapeDiscardsTheFrame : Obligations.BadEscapeDiscardsTheFrame :=
  fun s w hesc h1 h2 h3 => rxByte_and_row_of_receive (if_pos ⟨hesc, h1, h2, h3⟩) (hesc ▸ decodeByte_badEscape h1 h2 h3)
    (receive_badEsc false w s)

end Sys2Proof.Proofs

/-! Family 41_message_model: the checksum, the reserved commands, and a whole wire frame fed to the receiver. -/

namespace Sys2Proof.Proofs

open Sys2Proof.Machine Sys2Proof.Safety

/-! ## The checksum (R120, R121, R132) -/

@[simp] theorem xorFold_cons (seed b : Byte) (bs : List Byte) : xorFold seed (b :: bs) = xorFold (seed ^^^ b) bs := rfl

/-- Permuted bytes fold to the same value: two neighbours can change places. -/
theorem xorFold_perm (seed : Byte) {xs ys : List Byte} (h : xs.Perm ys) : xorFold seed xs = xorFold seed ys :=
  h.foldl_eq' (fun a _ b _ acc => by rw [BitVec.xor_assoc, BitVec.xor_comm a b, ← BitVec.xor_assoc]) seed

/-- Settles O19. A checksum is a fold, and one more byte at its end is one more XOR. -/
theorem checksumFoldsInAnyOrder : Obligations.ChecksumFoldsInAnyOrder :=
  ⟨fun _ _ => xorFold_perm _, fun cmd len b p => List.foldl_concat _ _ b (cmd :: len :: p), fun _ _ => rfl⟩

theorem xorFold_inj {seed seed' : Byte} (bs : List Byte) : xorFold seed bs = xorFold seed' bs ↔ seed = seed' := by
  induction bs generalizing seed seed' with
  | nil => rfl
  | cons b bs ih => rw [xorFold_cons, xorFold_cons, ih, BitVec.xor_left_inj]

/-- Replacing one byte by another value changes the fold. -/
theorem xorFold_set_ne {seed b old : Byte} {i : Nat} {bs : List Byte} (hi : bs[i]? = some old) (hb : b ≠ old) :
    xorFold seed (bs.set i b) ≠ xorFold seed bs := by
  induction bs generalizing i seed with
  | nil => cases hi
  | cons a bs ih =>
    cases i with
    | zero =>
      obtain rfl : a = old := Option.some.inj hi
      simpa [xorFold_inj] using hb
    | succ i => exact ih hi

/-- Settles O20. The command is byte 0 of the fold, and payload byte `i` is byte `i + 2`. -/
theorem checksumDetectsOneChangedByte : Obligations.ChecksumDetectsOneChangedByte :=
  fun cmd len p => ⟨fun i _ _ hi hb => xorFold_set_ne (i := i + 2) (bs := cmd :: len :: p) hi hb,
    fun _ hcmd => xorFold_set_ne (i := 0) (bs := cmd :: len :: p) rfl hcmd⟩

/-! ## A reserved code as COMMAND byte (R131, R202) -/

/-- Settles O32. Both guards of the row hold, and a byte that is no known command is rejected (R145). -/
theorem reservedCommandIsRejected : Obligations.ReservedCommandIsRejected := by
  intro s c hphase hc harrive
  have hunknown : ¬ c.toNat < Config.nCmd := Nat.not_lt.mpr hc
  rw [exec_cmdReserved hunknown, commandByte, if_pos ⟨hphase, canArrive_iff_escPending_iff.mpr harrive⟩,
    receive_byte_command false c hphase, onCommand, if_neg (by simpa [isKnownCommand] using hunknown)]
  rfl

/-! ## Runs over escaped bytes (R114, R140) -/

/-- A run that goes on without output hands its end state to the bytes after it. -/
theorem runBytes_append_of_silent {xs : List Byte} {s t : State} (ys : List Byte)
    (h : runBytes xs s = .next (t, [])) : runBytes (xs ++ ys) s = runBytes ys t := by
  rw [runBytes, List.map_append, runOps_append_next _ h, ← runBytes]
  cases runBytes ys t <;> rfl

theorem runBytes_singleton {w : Byte} {s t : State} (h : receive (decodeByte s.escPending w) s = .next t) :
    runBytes [w] s = .next (t, outputsOf t.out) :=
  runOps_cons_eq_next.mpr ⟨t, [], h, rfl, (List.append_nil _).symm⟩

/-- The wire form of a logical byte, plain or escaped, is one receive transition on that byte. An ESCAPE before it only moves the
transition number on. -/
theorem runBytes_encodeByte {b : Byte} {s t : State} (hesc : s.escPending = false)
    (h : receive (false, .byte b) s = .next t) :
    ∃ k, runBytes (encodeByte b) s = .next (withSurroundings t s.stimuli t.out k, outputsOf t.out) := by
  rcases encodeByte_escaped_or_plain b with ⟨w, -, henc, hw⟩ | ⟨h1, h2, henc⟩
  · have hfirst : runBytes [Config.escape] s = .next (received true s, []) :=
      runBytes_singleton (by rw [hesc, decodeByte_escape, receive_none])
    have hsecond := receive_withSurroundings h s.stimuli Outputs.none (s.tick + 1)
    rw [henc]
    exact ⟨_, (runBytes_append_of_silent [w] hfirst).trans
      (runBytes_singleton (by rw [received_escPending, hw]; exact hsecond))⟩
  · have hplain := receive_withSurroundings h s.stimuli s.out s.tick
    exact ⟨_, henc ▸ runBytes_singleton (by rw [hesc, decodeByte_literal b h1 h2]; exact hplain)⟩

/-! ## The parts of a frame, from any receive state (R141 to R148) -/

/-- The receiver holds a frame's command and length and the payload bytes `q` so far, and takes the next byte of it: the checksum once
`q` is whole, else a payload byte. -/
structure HoldsFrame (pairing : Config.CmdCode) (cmd len : Byte) (q : List Byte) (s : State) : Prop where
  escPending : s.escPending = false
  cmdCode : s.cmdCode = pairing
  rxCmd : s.rxCmd = cmd
  rxLen : s.rxLen = len
  rxCur : s.rxCur.toNat = q.length
  rxBuf : ∀ i, i < q.length → s.rxBuf.read i = q[i]?
  rxPhase : s.rxPhase = if q.length = len.toNat then .checksum else .data

/-- A known command in COMMAND is held, without output. -/
theorem runBytes_command {s : State} {cmd : Byte} (hesc : s.escPending = false) (hphase : s.rxPhase = .command)
    (hc : cmd.toNat < Config.nCmd) :
    ∃ t, runBytes (encodeByte cmd) s = .next (t, []) ∧ t.escPending = false ∧ t.cmdCode = s.cmdCode ∧ t.rxCmd = cmd ∧
      t.rxPhase = .len := by
  have hnext := receive_byte_command false cmd hphase
  rw [onCommand, if_pos (show isKnownCommand cmd = true from decide_eq_true hc)] at hnext
  obtain ⟨k, hrun⟩ := runBytes_encodeByte hesc hnext
  exact ⟨_, hrun, rfl, rfl, rfl, rfl⟩

/-- A legal length in LEN starts the payload at cursor 0, without output. -/
theorem runBytes_len {s : State} {len : Byte} (hesc : s.escPending = false) (hphase : s.rxPhase = .len)
    (hl : len.toNat ≤ Config.maxLen) :
    ∃ t, runBytes (encodeByte len) s = .next (t, []) ∧ HoldsFrame s.cmdCode s.rxCmd len [] t := by
  have hnext := receive_byte_len false len hphase
  rw [onLen, if_pos (show isLegalLength len = true from decide_eq_true hl)] at hnext
  obtain ⟨k, hrun⟩ := runBytes_encodeByte hesc hnext
  refine ⟨_, hrun, rfl, rfl, rfl, rfl, rfl, fun i hi => absurd hi (Nat.not_lt_zero i), if_congr ?_ rfl rfl⟩
  rw [← BitVec.toNat_inj, List.length_nil, eq_comm]
  exact Iff.rfl

/-- A payload byte that is still due is held after those before it, without output. -/
theorem runBytes_data {pairing : Config.CmdCode} {cmd len : Byte} {q : List Byte} {s : State}
    (hs : HoldsFrame pairing cmd len q s) (hl : len.toNat ≤ Config.maxLen) (hq : q.length < len.toNat) (b : Byte) :
    ∃ t, runBytes (encodeByte b) s = .next (t, []) ∧ HoldsFrame pairing cmd len (q ++ [b]) t := by
  obtain ⟨hesc, hcode, hcmd, hlen, hcur, hbuf, hphase⟩ := hs
  rw [if_neg hq.ne] at hphase
  have hmax : s.rxCur.toNat < Config.maxLen := hcur ▸ hq.trans_le hl
  have hnext : (s.rxCur + 1).toNat = (q ++ [b]).length := by
    rw [BitVec.toNat_add, hcur, List.length_append]
    exact Nat.mod_eq_of_lt (show q.length + 1 < 256 by have := len.isLt; omega)
  obtain ⟨k, hrun⟩ := runBytes_encodeByte hesc (receive_byte_data false b hphase hmax)
  refine ⟨_, hrun, rfl, hcode, hcmd, hlen, hnext, fun i hi => ?_, if_congr ?_ rfl rfl⟩
  · refine (read_write _ _ _ _).trans ?_
    rw [hcur]
    split
    · next h => rw [h, List.getElem?_concat_length]
    · next h =>
      rw [List.length_append, List.length_singleton] at hi
      have hlt : i < q.length := by omega
      rw [hbuf i hlt, List.getElem?_append_left hlt]
  · rw [← hnext, ← BitVec.toNat_inj]
    exact hlen ▸ Iff.rfl

/-- The payload bytes that are still due are held after those before them, without output: by induction on them. -/
theorem runBytes_payload {pairing : Config.CmdCode} {cmd len : Byte} (hl : len.toNat ≤ Config.maxLen) (p : List Byte)
    {q : List Byte} {s : State} (hs : HoldsFrame pairing cmd len q s) (hp : (q ++ p).length = len.toNat) :
    ∃ t, runBytes (encodeBytes p) s = .next (t, []) ∧ HoldsFrame pairing cmd len (q ++ p) t := by
  induction p generalizing q s with
  | nil => exact ⟨s, rfl, (List.append_nil q).symm ▸ hs⟩
  | cons b p ih =>
    have hq : q.length < len.toNat := by
      rw [List.length_append, List.length_cons] at hp
      omega
    obtain ⟨a, hrun, ha⟩ := runBytes_data hs hl hq b
    rw [List.append_cons] at hp ⊢
    obtain ⟨t, hrest, ht⟩ := ih ha hp
    exact ⟨t, by rw [encodeBytes_cons, runBytes_append_of_silent _ hrun, hrest], ht⟩

/-- What a frame with the right checksum puts out: its message if its size is right, else a report of its size (R124, R148). -/
def frameOutputs (pairing : Config.CmdCode) (cmd len : Byte) (p : List Byte) : Outputs :=
  if sizeOk pairing cmd len then { Outputs.none with msg := some ⟨cmd, len, p⟩ }
  else { Outputs.none with ev := some ⟨.sizeMismatch, len⟩ }

theorem frameOutputs_of_size_ok {pairing : Config.CmdCode} {cmd len : Byte} (p : List Byte)
    (h : sizeOk pairing cmd len = true) :
    frameOutputs pairing cmd len p = { Outputs.none with msg := some ⟨cmd, len, p⟩ } := if_pos h

theorem frameOutputs_of_size_ne {pairing : Config.CmdCode} {cmd len : Byte} (p : List Byte)
    (h : sizeOk pairing cmd len = false) :
    frameOutputs pairing cmd len p = { Outputs.none with ev := some ⟨.sizeMismatch, len⟩ } :=
  if_neg (Bool.not_eq_true _ ▸ h)

/-- The frame's own checksum after the whole payload ends the frame with what its size makes of it. -/
theorem runBytes_checksum {pairing : Config.CmdCode} {cmd len : Byte} {p : List Byte} {s : State}
    (hs : HoldsFrame pairing cmd len p s) (hl : len.toNat ≤ Config.maxLen) (hp : p.length = len.toNat) :
    ∃ t, runBytes (encodeByte (checksum cmd len p)) s = .next (t, outputsOf t.out) ∧ t.escPending = false ∧
      t.rxPhase = .idle ∧ t.out = frameOutputs pairing cmd len p := by
  obtain ⟨hesc, rfl, rfl, rfl, -, hbuf, hphase⟩ := hs
  rw [if_pos hp] at hphase
  have hread : bufReadFrom s.rxBuf 0 s.rxLen.toNat = .ok p :=
    (bufReadFrom_ok_iff _ _ _ _).mpr ⟨hp, fun j hj => by rw [Nat.zero_add]; exact ⟨hj.trans_le hl, hbuf j (hp ▸ hj)⟩⟩
  obtain ⟨k, hrun⟩ := runBytes_encodeByte hesc
    (receive_byte_checksum false (checksum s.rxCmd s.rxLen p) hphase hread)
  refine ⟨_, hrun, onVerdict_escPending .., onVerdict_rxPhase .., ?_⟩
  cases hsize : sizeOk s.cmdCode s.rxCmd s.rxLen with
  | false =>
    rw [frameOutputs_of_size_ne p hsize]
    exact congrArg State.out (onVerdict_of_size_ne (s := received false s) rfl hsize)
  | true =>
    rw [frameOutputs_of_size_ok p hsize]
    exact congrArg State.out (onVerdict_of_ok (s := received false s) rfl hsize)

/-! ## A whole wire frame, from any receive state (R73, R124, R148) -/

/-- The wire bytes of a frame put out one thing, in the last byte's transition: its message, or a report of its size. -/
theorem runBytes_wireFrame (s : State) {cmd len : Byte} {p : List Byte} (hc : cmd.toNat < Config.nCmd)
    (hl : len.toNat ≤ Config.maxLen) (hp : p.length = len.toNat) :
    ∃ t, runBytes (wireFrame cmd len p) s = .next (t, outputsOf t.out) ∧ t.escPending = false ∧ t.rxPhase = .idle ∧
      t.out = frameOutputs s.cmdCode cmd len p := by
  have hstart : runBytes [Config.delimiter] s = .next ({ received false s with rxPhase := .command }, []) :=
    runBytes_singleton (by rw [decodeByte_delimiter, receive_sof])
  obtain ⟨a, hcmd, hesc, hcode, rfl, hphase⟩ := runBytes_command (s := { received false s with rxPhase := .command })
    rfl rfl hc
  obtain ⟨b, hlen, hb⟩ := runBytes_len hesc hphase hl
  obtain ⟨d, hpay, hd⟩ := runBytes_payload hl p hb hp
  obtain ⟨t, hsum, ht⟩ := runBytes_checksum (p := p) hd hl hp
  rw [hcode] at ht
  refine ⟨t, ?_, ht⟩
  have hwire : wireFrame a.rxCmd len p = [Config.delimiter] ++ (encodeByte a.rxCmd ++ (encodeByte len ++
      (encodeBytes p ++ encodeByte (checksum a.rxCmd len p)))) := by
    simp [wireFrame, logicalFrame]
  rw [hwire, runBytes_append_of_silent _ hstart, runBytes_append_of_silent _ hcmd, runBytes_append_of_silent _ hlen,
    runBytes_append_of_silent _ hpay, hsum]

/-- Settles O52. TX_FRAME queues the wire frame, whose size check fails. -/
theorem wrongSizedFrameIsDropped : Obligations.WrongSizedFrameIsDropped := by
  intro u s cmd len p n hempty hc hl hp hexp hn
  obtain ⟨t, hrun, -, hidle, hout⟩ := runBytes_wireFrame s hc hl hp
  have hsize : sizeOk s.cmdCode cmd len = false := by rw [sizeOk, hexp]; exact beq_false_of_ne hn
  refine ⟨_, t, execTxFrame_of_accepted hempty hc hl hp, ?_, hidle⟩
  rw [pushWire_txOut, begin_txOut, hempty, List.nil_append, hrun, hout, frameOutputs_of_size_ne p hsize]
  rfl

end Sys2Proof.Proofs

/-! Family 42_reassembler: what a logical byte does in each phase, and a frame after any garbage. -/

namespace Sys2Proof.Proofs

open Sys2Proof.Machine Sys2Proof.Safety

/-! ## A logical byte, phase by phase (R144 to R147) -/

/-- RX_BYTE of a wire byte that gives a logical byte is the receive transition on that byte (R140). -/
theorem exec_rxByte_of_byte {s : State} {w v : Byte} (hdec : decodeByte s.escPending w = (false, .byte v)) :
    exec (.rxByte w) s = receive (false, .byte v) s := by
  rw [exec_rxByte, hdec]

theorem onCommand_of_known {v : Byte} (s : State) (hv : v.toNat < Config.nCmd) :
    onCommand v s = { s with rxCmd := v, rxPhase := .len } := if_pos (decide_eq_true hv)

theorem onCommand_of_unknown {v : Byte} (s : State) (hv : Config.nCmd ≤ v.toNat) :
    onCommand v s = s.raise .unknownCmd v := if_neg (by simpa [isKnownCommand] using hv)

theorem onLen_of_legal {v : Byte} (s : State) (hv : v.toNat ≤ Config.maxLen) :
    onLen v s = { s with rxLen := v, rxCur := 0, rxPhase := if v = 0 then .checksum else .data } :=
  if_pos (decide_eq_true hv)

theorem onLen_of_too_long {v : Byte} (s : State) (hv : Config.maxLen < v.toNat) :
    onLen v s = s.raise .badLen v := if_neg (by simpa [isLegalLength] using hv)

/-- Settles O25. In IDLE the reassembler leaves the state as the decoder left it. -/
theorem idleIgnoresLogicalBytes : Obligations.IdleIgnoresLogicalBytes :=
  fun _ _ v hdec hphase => (exec_rxByte_of_byte hdec).trans (receive_byte_idle false v hphase)

/-- Settles O26, one answer of the command check per clause. -/
theorem commandByteIsCheckedAgainstTheCount : Obligations.CommandByteIsCheckedAgainstTheCount := by
  intro s w v hdec hphase
  rw [exec_rxByte_of_byte hdec, receive_byte_command false v hphase]
  exact ⟨fun hv => congrArg _ (onCommand_of_known _ hv), fun hv => congrArg _ (onCommand_of_unknown _ hv)⟩

/-- Settles O27, one answer of the length-range check per clause. -/
theorem lengthByteIsCheckedAgainstTheRange : Obligations.LengthByteIsCheckedAgainstTheRange := by
  intro s w v hdec hphase
  rw [exec_rxByte_of_byte hdec, receive_byte_len false v hphase]
  exact ⟨fun hv => congrArg _ (onLen_of_legal _ hv), fun hv => congrArg _ (onLen_of_too_long _ hv)⟩

/-- Settles O28. The next state's buffer is one `Memory.write` at the cursor. -/
theorem dataByteIsStoredAtTheCursor : Obligations.DataByteIsStoredAtTheCursor := by
  intro s w v hdec hphase hcur
  exact ⟨_, (exec_rxByte_of_byte hdec).trans (receive_byte_data false v hphase hcur), read_write_same _ _ _,
    fun _ ha => read_write_other _ _ ha, rfl⟩

/-! ## The size check and the CHECKSUM byte (R124, R125, R148) -/

/-- The size check passes where the command's expected length is `ANY` or the received length (R124). -/
theorem sizeOk_iff {pairing : Config.CmdCode} {cmd len : Byte} :
    sizeOk pairing cmd len = true ↔
      expLen pairing cmd = .any ∨ ∃ n, expLen pairing cmd = .exactly n ∧ n.val = len.toNat := by
  rw [sizeOk]
  cases expLen pairing cmd <;> simp [lengthMatches]

/-- A command whose expected length is 3 has the right size at length 3 only (R129, R130). -/
theorem sizeOk_iff_of_exactly_three {pairing : Config.CmdCode} {cmd len : Byte}
    (h : expLen pairing cmd = .exactly 3) : sizeOk pairing cmd len = true ↔ len = 3 := by
  rw [sizeOk, h, ← BitVec.toNat_inj]
  exact beq_iff_eq.trans eq_comm

/-- Settles O29. The buffered payload is what the block reads, and the three verdicts are those of `onVerdict`, in its order. -/
theorem checksumByteDecidesTheFrame : Obligations.ChecksumByteDecidesTheFrame := by
  intro s w v p hdec hphase hl hp hbuf c sized
  have hread : bufReadFrom s.rxBuf 0 s.rxLen.toNat = .ok p :=
    (bufReadFrom_ok_iff _ _ _ _).mpr ⟨hp, fun j hj => by rw [Nat.zero_add]; exact ⟨hj.trans_le hl, hbuf j (hp ▸ hj)⟩⟩
  have hsized : sizeOk s.cmdCode s.rxCmd s.rxLen = true ↔ sized := sizeOk_iff
  rw [exec_rxByte_of_byte hdec, receive_byte_checksum false v hphase hread]
  refine ⟨fun hcmd => hsized.symm.trans (sizeOk_iff_of_exactly_three ?_), fun hv => ?_, fun hv hsize => ?_,
    fun hv hsize => ?_⟩
  · rcases hcmd with hcmd | hcmd <;> rw [hcmd, expLen_commandCode] <;> rfl
  · exact congrArg _ (onVerdict_of_ne (s := received false s) hv)
  · exact congrArg _ (onVerdict_of_size_ne (s := received false s) hv (Bool.eq_false_iff.mpr (mt hsized.mp hsize)))
  · exact congrArg _ (onVerdict_of_ok (s := received false s) hv (hsized.mpr hsize))

/-! ## Resynchronisation (R30, R150) -/

/-- Where the receive invariant holds any wire bytes run through, and keep the pairing: by induction on the bytes. -/
theorem runBytes_goesOn {s : State} (hs : RxInv s) (ws : List Byte) :
    ∃ t os, runBytes ws s = .next (t, os) ∧ t.cmdCode = s.cmdCode := by
  induction ws generalizing s with
  | nil => exact ⟨s, [], rfl, rfl⟩
  | cons w ws ih =>
    obtain ⟨a, ha⟩ := receive_goesOn hs (decodeByte s.escPending w)
    obtain ⟨t, os, hrun, hcode⟩ := ih (rxInv_receive hs ha)
    obtain ⟨-, hcode', -⟩ := receive_keeps ha
    exact ⟨t, _, runOps_cons_eq_next.mpr ⟨a, os, ha, hrun, rfl⟩, hcode.trans hcode'⟩

/-- Two runs that go on, one after the other, put out what the first did and then what the second did. -/
theorem runBytes_append {xs ys : List Byte} {s t u : State} {os os' : List Output} (hx : runBytes xs s = .next (t, os))
    (hy : runBytes ys t = .next (u, os')) : runBytes (xs ++ ys) s = .next (u, os ++ os') := by
  rw [runBytes, List.map_append, runOps_append_next _ hx, ← runBytes, hy]

theorem messagesOf_append (os os' : List Output) : messagesOf (os ++ os') = messagesOf os ++ messagesOf os' :=
  List.filterMap_append

/-- Settles O53. The garbage runs through, and the frame after it is received from whatever state it left. -/
theorem garbageThenAFrameDeliversTheFrame : Obligations.GarbageThenAFrameDeliversTheFrame := by
  intro s garbage cmd len p hs hc hl hp hsize
  obtain ⟨g, gs, hgarbage, hcode⟩ := runBytes_goesOn hs garbage
  obtain ⟨t, hframe, -, -, hout⟩ := runBytes_wireFrame g hc hl hp
  rw [hout, hcode, frameOutputs_of_size_ok p (sizeOk_iff.mpr hsize)] at hframe
  refine ⟨g, gs, t, hgarbage, runBytes_append hgarbage hframe, fun hnone => ?_⟩
  rw [messagesOf_append, hnone]
  rfl

end Sys2Proof.Proofs

/-! Family 43_tx_framer: when TX_FRAME has a step and what it queues, TX_POP and a run of them, and the round trip to the receiver. -/

namespace Sys2Proof.Proofs

open Sys2Proof.Machine Sys2Proof.Safety

/-! ## TX_FRAME (R170, R171) -/

/-- An accepted request queues its wire frame and changes nothing else. -/
theorem exec_txFrame_queues_wireFrame {cmd len : Byte} {p : List Byte} {s : State} (hq : s.txOut = [])
    (hc : cmd.toNat < Config.nCmd) (hl : len.toNat ≤ Config.maxLen) (hp : p.length = len.toNat) :
    exec (.txFrame cmd len p) s =
      .next { s with txOut := wireFrame cmd len p, out := Outputs.none, tick := s.tick + 1 } := by
  refine (execTxFrame_of_accepted hq hc hl hp).trans ?_
  rw [State.pushWire, begin_txOut, hq, List.nil_append]
  rfl

/-- Settles O47. The wire form written out in the statement is `wireFrame`'s own definition. -/
theorem txFramePushesTheWireFrame : Obligations.TxFramePushesTheWireFrame :=
  fun _ _ _ _ hq hc hl hp => exec_txFrame_queues_wireFrame hq hc hl hp

theorem exec_txFrame_of_busy {s : State} (hq : s.txOut ≠ []) (cmd len : Byte) (p : List Byte) :
    exec (.txFrame cmd len p) s = .refused .txBusy := if_pos hq

theorem isBadRequest_iff {cmd len : Byte} :
    isBadRequest cmd len = true ↔ Config.nCmd ≤ cmd.toNat ∨ Config.maxLen < len.toNat := by
  simp [isBadRequest, isKnownCommand, isLegalLength]

theorem exec_txFrame_of_bad {cmd len : Byte} {s : State} (hq : s.txOut = []) (hbad : isBadRequest cmd len = true)
    (p : List Byte) : exec (.txFrame cmd len p) s = .refused .txBadRequest :=
  (if_neg (not_not_intro hq)).trans (if_pos hbad)

/-- Settles O48. The queue is tested first, then the request. -/
theorem txFrameIsRefusedWhenBusyOrBad : Obligations.TxFrameIsRefusedWhenBusyOrBad :=
  fun _ cmd len p => ⟨fun hq => exec_txFrame_of_busy hq cmd len p,
    fun hq hbad => exec_txFrame_of_bad hq (isBadRequest_iff.mpr hbad) p⟩

/-- Settles O9. A refused request into an empty queue leaves no transmit operation, so the step is what the receive side makes of it. -/
theorem refusedRequestChangesNothing : Obligations.RefusedRequestChangesNothing := by
  intro s p rest hstim hrst _ hq hbad
  have hnone : acceptedTransmit p s = [] := acceptedTransmit_eq_nil (.inr (.inr hbad)) (.inr hq)
  rw [step_ports hstim hrst, hnone]
  refine ⟨fun hrx => ?_, fun hrx => ?_⟩
  · rw [if_neg (Bool.eq_false_iff.mp hrx)]
    rfl
  · rw [if_pos hrx]
    rfl

/-! ## TX_POP (R40, R62, R172, R173) -/

theorem wireByte_of_cons {s : State} {b : Byte} {rest : List Byte} (hq : s.txOut = b :: rest) : wireByte s = b := by
  simp [wireByte, hq]

theorem execTxPop_of_nil {s : State} (hq : s.txOut = []) : execTxPop s = .refused .noWireByte := by
  simp [execTxPop, hq]

/-- Settles O49. `wire_byte` and TX_POP both read the head of the queue. -/
theorem txPopTakesTheHead : Obligations.TxPopTakesTheHead :=
  fun _ => ⟨fun _ _ hq => ⟨wireByte_of_cons hq, execTxPop_of_cons hq⟩, execTxPop_of_nil⟩

/-- `n` TX_POPs put out the first `n` queued bytes in order. Beside the queue, only the last outputs and the transition number change:
by induction on `n`, the first TX_POP taking the head. -/
theorem runOps_replicate_txPop {s : State} {n : Nat} (hn : n ≤ s.txOut.length) :
    ∃ o k, runOps (List.replicate n .txPop) s =
      .next (withSurroundings (withQueue s (s.txOut.drop n)) s.stimuli o k, (s.txOut.take n).map Output.wire) := by
  induction n generalizing s with
  | zero => exact ⟨s.out, s.tick, rfl⟩
  | succ n ih =>
    obtain ⟨b, rest, hq⟩ := List.exists_cons_of_length_pos (Nat.zero_lt_of_lt hn)
    rw [hq] at hn ⊢
    obtain ⟨o, k, hrest⟩ := ih (s := { s.begin with txOut := rest, out := { Outputs.none with wire := some b } })
      (Nat.le_of_succ_le_succ hn)
    exact ⟨o, k, runOps_cons_eq_next.mpr ⟨_, _, execTxPop_of_cons hq, hrest, rfl⟩⟩

/-- Settles O50. The queue is empty, and `tx_ready` is 1, when all of its bytes are taken. -/
theorem poppingAllSendsTheQueueInOrder : Obligations.PoppingAllSendsTheQueueInOrder := by
  intro s n hn
  obtain ⟨o, k, hrun⟩ := runOps_replicate_txPop hn
  refine ⟨_, hrun, rfl, ?_, rfl, rfl, rfl, rfl, rfl, rfl⟩
  calc (s.txOut.drop n).isEmpty = true ↔ s.txOut.length ≤ n := by rw [List.isEmpty_iff, List.drop_eq_nil_iff]
    _ ↔ n = s.txOut.length := ⟨fun h => hn.antisymm h, fun h => h.ge⟩

/-! ## The round trip (R174) -/

/-- Settles O51. TX_FRAME queues the wire frame, which a receiver in any state takes to the message, as its size check passes. -/
theorem transmittedFrameIsReceived : Obligations.TransmittedFrameIsReceived := by
  intro u s cmd len p hempty hc hl hp hsize
  obtain ⟨t, hrun, hesc, hidle, hout⟩ := runBytes_wireFrame s hc hl hp
  rw [frameOutputs_of_size_ok p (sizeOk_iff.mpr hsize)] at hout
  refine ⟨_, t, exec_txFrame_queues_wireFrame hempty hc hl hp, ?_, congrArg Outputs.msg hout, hidle, hesc⟩
  rw [hrun, hout]
  rfl

end Sys2Proof.Proofs

/-! Family 60_exceptions: what the entry of an error writes, which rows report, and how the reassembler leaves IDLE. -/

namespace Sys2Proof.Proofs

open Sys2Proof.Machine Sys2Proof.Safety

/-! ## Entry of an error (R200, R207, R209) -/

/-- A verdict that shows an event, where none was shown before, entered an error (R148, R209). -/
theorem onVerdict_ev_eq_some {v : Byte} {p : List Byte} {s : State} {e : Event} (hsilent : s.out.ev = none)
    (he : (onVerdict v p s).out.ev = some e) : onVerdict v p s = s.raise e.code e.info := by
  rcases onVerdict_cases v p s with ⟨-, hv⟩ | ⟨-, -, hv⟩ | ⟨-, -, hv⟩ <;> rw [hv] at he ⊢
  · cases he; rfl
  · cases he; rfl
  · cases hsilent.symm.trans he

/-- An event comes only from `State.raise` on the state the decoder left, and never while the decoder gives no result. -/
theorem receive_ev_eq_some {d : Bool × DecResult} {s t : State} {e : Event} (h : receive d s = .next t)
    (he : t.out.ev = some e) : d.2 ≠ .none ∧ t = (received d.1 s).raise e.code e.info := by
  obtain ⟨esc, r⟩ := d
  rcases receive_cases h with ⟨-, rfl⟩ | ⟨-, rfl⟩ | ⟨w, rfl, rfl⟩ | ⟨v, rfl, hbyte⟩
  · cases he
  · cases he
  · cases he; exact ⟨nofun, rfl⟩
  · refine ⟨nofun, ?_⟩
    rcases hbyte with ⟨-, rfl⟩ | ⟨-, -, rfl⟩ | ⟨-, -, rfl⟩ | ⟨-, -, rfl⟩ | ⟨-, -, rfl⟩ | ⟨-, -, rfl⟩ | ⟨-, p, -, rfl⟩
    · cases he
    · cases he
    · cases he; rfl
    · cases he
    · cases he; rfl
    · cases he
    · exact onVerdict_ev_eq_some rfl he

/-- The decoder leaves an escape pending only where it gives no result (R104, R106). -/
theorem decodeByte_escPending_eq_false {esc : Bool} {w : Byte} (h : (decodeByte esc w).2 ≠ .none) :
    (decodeByte esc w).1 = false := by
  rcases decodeByte_cases esc w with ⟨-, hdec⟩ | ⟨-, -, hdec⟩ | ⟨-, -, -, hdec⟩ | ⟨-, -, hdec⟩ | ⟨-, -, hdec⟩ |
    ⟨-, -, -, -, hdec⟩
  case inr.inl => exact absurd (congrArg Prod.snd hdec) h
  all_goals exact congrArg Prod.fst hdec

/-- Settles O42. The event came from `State.raise`, and a byte that raises one ends any escape. -/
theorem errorEntrySavesNothing : Obligations.ErrorEntrySavesNothing := by
  intro s t w e h he
  obtain ⟨hresult, ht⟩ := receive_ev_eq_some (exec_rxByte w s ▸ h) he
  rw [ht, decodeByte_escPending_eq_false hresult]
  rfl

/-- Settles O40. The entry of an error shows no message, and a receive transition puts nothing on the wire. -/
theorem atMostOneOutputPerByte : Obligations.AtMostOneOutputPerByte := by
  intro s t w h
  obtain ⟨-, -, -, hwire, -⟩ := receive_keeps (exec_rxByte w s ▸ h)
  cases hev : t.out.ev with
  | none => cases hmsg : t.out.msg <;> simp [outputsOf, hev, hmsg, hwire]
  | some e =>
    have hmsg : t.out.msg = none := by rw [errorEntrySavesNothing s t w e h hev]; rfl
    simp [outputsOf, hev, hmsg, hwire]

/-! ## The rows that report (R175, R200, R230) -/

/-- Settles O41. RESET starts with no output and adds none; the other rows that take no wire byte show no message and no event by
their frame. -/
theorem onlyReceiveRowsReport : Obligations.OnlyReceiveRowsReport := by
  intro i s t h hreport
  by_contra hi
  have hsilent : t.out.ev = none ∧ t.out.msg = none := by
    by_cases hreset : i = .reset
    · subst hreset; cases h; exact ⟨rfl, rfl⟩
    · obtain ⟨-, -, -, -, -, -, -, -, hmsg, hev, -⟩ :=
        transmitAndEncoderRowsFrame i s t (Bool.eq_false_iff.mpr hi) hreset h
      exact ⟨hev, hmsg⟩
  exact hreport.elim (· hsilent.1) (· hsilent.2)

/-! ## Leaving IDLE (R210, R211) -/

/-- Everything RX_BYTE can do in IDLE: start a frame, leave the state as the decoder left it, or report a bad escape. -/
theorem exec_rxByte_idle_cases {s t : State} {w : Byte} (hidle : s.rxPhase = .idle)
    (h : exec (.rxByte w) s = .next t) :
    (w = Config.delimiter ∧ t = { received false s with rxPhase := .command }) ∨
    (∃ esc, t = received esc s) ∨
    t = (received false s).raise .badEscape w := by
  rw [exec_rxByte] at h
  rcases decodeByte_cases s.escPending w with ⟨hw, hdec⟩ | ⟨-, -, hdec⟩ | ⟨-, -, -, hdec⟩ | ⟨-, -, hdec⟩ | ⟨-, -, hdec⟩ |
    ⟨-, -, -, -, hdec⟩ <;> rw [hdec] at h
  · cases h; exact .inl ⟨hw, rfl⟩
  · cases h; exact .inr (.inl ⟨true, rfl⟩)
  case inr.inr.inr.inr.inr => cases h; exact .inr (.inr rfl)
  all_goals rw [receive_byte_idle _ _ hidle] at h; cases h; exact .inr (.inl ⟨false, rfl⟩)

/-- Settles O43, one clause of `exec_rxByte_idle_cases` after the other. -/
theorem idleIsLeftOnlyByADelimiter : Obligations.IdleIsLeftOnlyByADelimiter := by
  intro s t w hidle h
  rcases exec_rxByte_idle_cases hidle h with ⟨hw, rfl⟩ | ⟨esc, rfl⟩ | rfl
  · exact ⟨fun _ => ⟨hw, rfl⟩, nofun, rfl⟩
  · exact ⟨fun hleft => absurd hidle hleft, nofun, rfl⟩
  · exact ⟨fun hleft => absurd rfl hleft, fun e he => ⟨(Option.some.inj he).symm, rfl⟩, rfl⟩

end Sys2Proof.Proofs

/-! Family 70_reset_and_hazards: RESET, the bytes after it, and how long a delivered message stays. -/

namespace Sys2Proof.Proofs

open Sys2Proof.Machine

/-! ## RESET (R230 to R232) -/

/-- RESET reaches the reset state of the block with its pairing, but for the registers that R230 leaves unspecified and the model's own
fields: of the state before it only `cmd_code`, `tick` and `stimuli` are read. -/
theorem exec_reset (s : State) :
    exec .reset s =
      .next { State.resetWith s.cmdCode with
        rxCmd := Config.freeByte .rxCmd s.tick
        rxLen := Config.freeByte .rxLen s.tick
        rxCur := Config.freeByte .rxCur s.tick
        tick := s.tick + 1
        stimuli := s.stimuli } := rfl

/-- Settles O6. The port levels select RESET alone. -/
theorem resetPortExcludesTheOthers : Obligations.ResetPortExcludesTheOthers :=
  fun _ _ _ => step_ports_rst

/-- Settles O12. The fields are those of the reset state that `exec_reset` names. -/
theorem resetOperationClearsTheBlock : Obligations.ResetOperationClearsTheBlock :=
  fun s => ⟨_, exec_reset s, rfl, rfl, rfl, rfl, rfl, rfl⟩

/-- Settles O13. The state that `exec_reset` names depends on the three agreeing fields only. -/
theorem resetForgetsTheState : Obligations.ResetForgetsTheState := by
  intro s s' htick hstim hcode
  rw [exec_reset, exec_reset, htick, hstim, hcode]

/-! ## The bytes after RESET (R233) -/

/-- In IDLE a byte that is no DELIMITER is ignored: the phase stays IDLE, nothing is stored, and only EV_BAD_ESCAPE can be put out. -/
theorem exec_rxByte_idle_of_ne_delimiter {s t : State} {w : Byte} (hidle : s.rxPhase = .idle) (hw : w ≠ Config.delimiter)
    (h : exec (.rxByte w) s = .next t) :
    t.rxPhase = .idle ∧ t.rxBuf = s.rxBuf ∧ ∀ o ∈ outputsOf t.out, ∃ w, o = .event ⟨.badEscape, w⟩ := by
  rcases exec_rxByte_idle_cases hidle h with ⟨hdelim, -⟩ | ⟨esc, rfl⟩ | rfl
  · exact absurd hdelim hw
  · exact ⟨hidle, rfl, nofun⟩
  · exact ⟨rfl, rfl, fun o ho => ⟨w, List.mem_singleton.mp ho⟩⟩

/-- From IDLE any bytes without a DELIMITER run through and are ignored: by induction on the bytes, each of which is taken because IDLE
holds no frame (R30). -/
theorem runBytes_idle_of_no_delimiter {s : State} {ws : List Byte} (hidle : s.rxPhase = .idle)
    (hws : Config.delimiter ∉ ws) :
    ∃ u os, runBytes ws s = .next (u, os) ∧ u.rxPhase = .idle ∧ u.rxBuf = s.rxBuf ∧
      ∀ o ∈ os, ∃ w, o = .event ⟨.badEscape, w⟩ := by
  induction ws generalizing s with
  | nil => exact ⟨s, [], rfl, hidle, rfl, nofun⟩
  | cons w ws ih =>
    obtain ⟨hw, hrest⟩ := not_or.mp (mt List.mem_cons.mpr hws)
    obtain ⟨t, ht⟩ := noWireByteStopsTheBlock s w (rxInv_of_noFrame (.inl hidle))
    obtain ⟨htidle, htbuf, htout⟩ := exec_rxByte_idle_of_ne_delimiter hidle (Ne.symm hw) ht
    obtain ⟨u, os, hrun, huidle, hubuf, hos⟩ := ih htidle hrest
    exact ⟨u, _, runOps_cons_eq_next.mpr ⟨t, os, ht, hrun, rfl⟩, huidle, hubuf.trans htbuf,
      List.forall_mem_append.mpr ⟨htout, hos⟩⟩

/-- Settles O14. RESET ends in IDLE, from where bytes without a DELIMITER are ignored. -/
theorem afterResetBytesAreIgnoredUntilDelimiter : Obligations.AfterResetBytesAreIgnoredUntilDelimiter := by
  intro s t ws hreset hws
  obtain ⟨t', ht', -, hidle, -⟩ := resetOperationClearsTheBlock s
  cases ht'.symm.trans hreset
  exact runBytes_idle_of_no_delimiter hidle hws

/-! ## The window of a delivered message (R236) -/

/-- Everything RX_BYTE can do to the phase: keep it, end in IDLE or COMMAND, or go on in the frame from COMMAND to LEN, from
LEN to DATA or CHECKSUM, and from DATA to CHECKSUM (R141 to R148). -/
theorem exec_rxByte_rxPhase_cases {s t : State} {w : Byte} (h : exec (.rxByte w) s = .next t) :
    t.rxPhase = s.rxPhase ∨ t.rxPhase = .idle ∨ t.rxPhase = .command ∨
    (s.rxPhase = .command ∧ t.rxPhase = .len) ∨
    (s.rxPhase = .len ∧ (t.rxPhase = .data ∨ t.rxPhase = .checksum)) ∨
    (s.rxPhase = .data ∧ t.rxPhase = .checksum) := by
  rcases receive_cases (exec_rxByte w s ▸ h) with ⟨-, rfl⟩ | ⟨-, rfl⟩ | ⟨w, -, rfl⟩ | ⟨v, -, hbyte⟩
  · exact .inr (.inr (.inl rfl))
  · exact .inl rfl
  · exact .inr (.inl rfl)
  · rcases hbyte with ⟨-, rfl⟩ | ⟨hphase, -, rfl⟩ | ⟨-, -, rfl⟩ | ⟨hphase, -, rfl⟩ | ⟨-, -, rfl⟩ | ⟨hphase, -, rfl⟩ |
      ⟨-, p, -, rfl⟩
    · exact .inl rfl
    · simp [hphase]
    · exact .inr (.inl rfl)
    · exact .inr (.inr (.inr (.inr (.inl ⟨hphase, (ite_eq_or_eq (v = 0) _ _).symm⟩))))
    · exact .inr (.inl rfl)
    · by_cases hlast : s.rxCur + 1 = s.rxLen
      · exact .inr (.inr (.inr (.inr (.inr ⟨hphase, if_pos hlast⟩))))
      · exact .inl ((if_neg hlast).trans hphase.symm)
    · exact .inr (.inl (onVerdict_rxPhase v p _))

/-- Settles O45. Delivery ends in IDLE, so the phases of the next three RX_BYTEs are at most IDLE, COMMAND and LEN; by the frame of the
receive rows only COMMAND, LEN and DATA write `rx_cmd`, `rx_len` and `rx_buf`. -/
theorem deliveredMessageStaysForItsWindow : Obligations.DeliveredMessageStaysForItsWindow := by
  intro s t t1 t2 t3 w w1 w2 w3 m hexec hmsg h1 h2 h3
  obtain ⟨-, hidle, -⟩ := deliveredMessageIsReadAtThePorts s t w m hexec hmsg
  have hphase1 : t1.rxPhase = .idle ∨ t1.rxPhase = .command := by
    simpa [hidle] using exec_rxByte_rxPhase_cases h1
  have hphase2 : t2.rxPhase = .idle ∨ t2.rxPhase = .command ∨ t2.rxPhase = .len := by
    have hstep := exec_rxByte_rxPhase_cases h2
    rcases hphase1 with h | h <;> simp only [h, reduceCtorEq, false_and, true_and, or_false] at hstep <;> tauto
  obtain ⟨-, -, -, -, -, hcmd1, hlen1, -, hbuf1, -⟩ := receiveRowsFrame (.rxByte w1) t t1 rfl h1
  obtain ⟨-, -, -, -, -, -, hlen2, -, hbuf2, -⟩ := receiveRowsFrame (.rxByte w2) t1 t2 rfl h2
  obtain ⟨-, -, -, -, -, -, -, -, hbuf3, -⟩ := receiveRowsFrame (.rxByte w3) t2 t3 rfl h3
  have hcmd1 : t1.rxCmd = t.rxCmd := not_imp_comm.mp hcmd1 (by simp [hidle])
  have hlen1 : t1.rxLen = t.rxLen := not_imp_comm.mp hlen1 (by simp [hidle])
  have hlen2 : t2.rxLen = t1.rxLen := not_imp_comm.mp hlen2 (by rcases hphase1 with h | h <;> simp [h])
  have hbuf1 : t1.rxBuf = t.rxBuf := hbuf1 (by simp [hidle])
  have hbuf2 : t2.rxBuf = t1.rxBuf := hbuf2 (by rcases hphase1 with h | h <;> simp [h])
  have hbuf3 : t3.rxBuf = t2.rxBuf := hbuf3 (by rcases hphase2 with h | h | h <;> simp [h])
  exact ⟨hcmd1, hlen1, hlen2.trans hlen1, hbuf1, hbuf2.trans hbuf1, hbuf3.trans (hbuf2.trans hbuf1)⟩

end Sys2Proof.Proofs
